-- ==== Sys2Proof/Word.lean ====
section
/-! DEFINITION. The word type and the names of the plain bit vectors of the core (00_scope.md R8, R19). -/

namespace Sys2Proof

/-- A 32-bit pattern: register, hi, lo, pc, address, instruction (00_scope.md §5, R8). -/
abbrev Word := BitVec 32

/-- A register index 0..31, as the 5-bit register fields hold it (10_state.md R31, R35). -/
abbrev RegIndex := BitVec 5

/-- A byte of a serialized program image (20_memory.md R76); memory inside the core holds Words. -/
abbrev Byte := BitVec 8

end Sys2Proof
end

