-- ==== Sys2Proof/Syntax.lean ====
section
/-! DEFINITION. The instruction set as syntax: mnemonics, formats, operand roles, decoded fields, the 21 instructions,
and the names of the assembly-time errors (30_encoding.md, 60_exceptions.md R315). -/

namespace Sys2Proof

/-- The three instruction formats (30_encoding.md R100 to R102). -/
inductive Format where
  | r
  | i
  | j
  deriving DecidableEq, Repr

/-- The 21 mnemonics, in the catalog's own order (30_encoding.md R112). -/
inductive Mnemonic where
  | sll | srl | mfhi | mflo | mult | multu | div
  | add | addu | sub | subu | and | or
  | j
  | addi | addiu | andi | ori | lui | lw | sw
  deriving DecidableEq, Repr

/-- What an operand of the assembler's text stands for (30_encoding.md R112 "operand syntax", R141 to R143). -/
inductive OperandRole where
  | rd | rs | rt
  | shamt
  | immediate
  | offsetBase
  | address
  deriving DecidableEq, Repr

/-- Operand fields of an R-format word (30_encoding.md R100). Every instruction keeps all four, also those it ignores
(R134), so that its word can be rebuilt whole (the `word` a fatal error reports, 60_exceptions.md R310). -/
structure RFields where
  rs    : RegIndex
  rt    : RegIndex
  rd    : RegIndex
  shamt : BitVec 5
  deriving DecidableEq, Repr

/-- Operand fields of an I-format word (30_encoding.md R101); `imm` is the raw 16-bit field. The decoder's sign-extended
immediate (R131) and the zero-extended one are operand forms over it. -/
structure IFields where
  rs  : RegIndex
  rt  : RegIndex
  imm : BitVec 16
  deriving DecidableEq, Repr

/-- Operand field of a J-format word (30_encoding.md R102, R132). -/
structure JFields where
  target : BitVec 26
  deriving DecidableEq, Repr

/-- The instructions: one constructor per row of spec/opcode_table.json (00_scope.md R2, 30_encoding.md R112). -/
inductive Instr where
  | sll (f : RFields)
  | srl (f : RFields)
  | mfhi (f : RFields)
  | mflo (f : RFields)
  | mult (f : RFields)
  | multu (f : RFields)
  | div (f : RFields)
  | add (f : RFields)
  | addu (f : RFields)
  | sub (f : RFields)
  | subu (f : RFields)
  | and (f : RFields)
  | or (f : RFields)
  | j (f : JFields)
  | addi (f : IFields)
  | addiu (f : IFields)
  | andi (f : IFields)
  | ori (f : IFields)
  | lui (f : IFields)
  | lw (f : IFields)
  | sw (f : IFields)
  deriving DecidableEq, Repr

/-- What the R-format decoder returns: the six raw fields (30_encoding.md R130). -/
structure RWord where
  opcode : BitVec 6
  rs     : RegIndex
  rt     : RegIndex
  rd     : RegIndex
  shamt  : BitVec 5
  funct  : BitVec 6
  deriving DecidableEq, Repr

/-- What the I-format decoder returns; `imm` is already sign-extended to a Word (30_encoding.md R131). -/
structure IWord where
  opcode : BitVec 6
  rs     : RegIndex
  rt     : RegIndex
  imm    : Word
  deriving DecidableEq, Repr

/-- What the J-format decoder returns; the address field stays raw (30_encoding.md R132). -/
structure JWord where
  opcode : BitVec 6
  target : BitVec 26
  deriving DecidableEq, Repr

/-- The assembly-time errors of the primitives, the encoder and its text front end (60_exceptions.md R315).
They never touch the core's state. -/
inductive AsmError where
  /-- Bit-field bounds outside 0 ≤ from ≤ to ≤ 31 (00_scope.md R10, R11). -/
  | invalidRange
  /-- A value too wide for its field (00_scope.md R11, 30_encoding.md R120, R122, R124). -/
  | fieldOverflow
  /-- Operand count, type or register-name mismatch; a non-numeric number (30_encoding.md R141 to R144). -/
  | invalidOperands
  /-- An `offset(rs)` token missing a parenthesis (30_encoding.md R143). -/
  | invalidAddressSyntax
  /-- A mnemonic with no catalog entry (30_encoding.md R113). -/
  | unknownInstruction
  deriving DecidableEq, Repr

/-- Why a word is no instruction of this core (30_encoding.md R136). -/
inductive DecodeReject where
  /-- The opcode is not 0 and no descriptor has it. -/
  | unassignedOpcode (opcode : BitVec 6)
  /-- The opcode is 0 and no R-format descriptor has the funct. -/
  | unassignedFunct (funct : BitVec 6)
  deriving DecidableEq, Repr

end Sys2Proof
end

