-- ==== Sys2Proof/Config.lean ====
section
/-! DEFINITION. What a launch fixes: the types of the named parameters of 00_scope.md R9 and the constant of R8.
Their default values stand in Machine/Catalog.lean. -/

namespace Sys2Proof

/-- Whether a write of register 0 is kept or discarded (10_state.md R33, 92_eei_decisions.md D3). -/
inductive ZeroWrites where
  | kept
  | discarded
  deriving DecidableEq, Repr

/-- J's behaviour (43_jump.md R250, R251, 92_eei_decisions.md D11). -/
inductive JMode where
  | stubNop
  | notImplementedFault
  deriving DecidableEq, Repr

/-- Byte order of a serialized program image, outside the core (20_memory.md R76; IMAGE_BYTE_ORDER, left OPEN). -/
inductive ByteOrder where
  | bigEndian
  | littleEndian
  deriving DecidableEq, Repr

/-- The CATALOG parameter (30_encoding.md R112, 92_eei_decisions.md D1): the code bound to each of the 21 mnemonics.
For an R-format mnemonic the code is its funct (its opcode is 0); for the others it is the opcode. One field a mnemonic,
so exactly one descriptor exists for each (R111). -/
structure Catalog where
  sll   : BitVec 6
  srl   : BitVec 6
  mfhi  : BitVec 6
  mflo  : BitVec 6
  mult  : BitVec 6
  multu : BitVec 6
  div   : BitVec 6
  add   : BitVec 6
  addu  : BitVec 6
  sub   : BitVec 6
  subu  : BitVec 6
  and   : BitVec 6
  or    : BitVec 6
  j     : BitVec 6
  addi  : BitVec 6
  addiu : BitVec 6
  andi  : BitVec 6
  ori   : BitVec 6
  lui   : BitVec 6
  lw    : BitVec 6
  sw    : BitVec 6
  deriving DecidableEq, Repr

/-- A catalog entry as data (30_encoding.md R110); its semantics is the arm of `Machine.exec`. -/
structure Descriptor where
  symbol        : List Char
  operandSyntax : List OperandRole
  format        : Format
  opcode        : BitVec 6
  funct         : BitVec 6
  deriving DecidableEq, Repr

/-- The launch parameters that rules of the core read (00_scope.md R9, 70_reset_and_hazards.md R353). -/
structure Params where
  zeroWrites : ZeroWrites
  jMode      : JMode
  resetPc    : Word
  catalog    : Catalog
  deriving DecidableEq, Repr

/-- The fixed instruction size in bytes, `instruction_width` (00_scope.md R8, 10_state.md R30, R43). -/
def Config.instructionWidth : Nat := 4

end Sys2Proof
end

