-- ==== Sys2Proof/Machine/Catalog.lean ====
section
/-! DEFINITION. The instruction catalog: format, operand syntax and text of every mnemonic, the default numbers, and the
launch check of a CATALOG (30_encoding.md R110 to R114, R147). -/

namespace Sys2Proof

/-- The catalog's own order (30_encoding.md R112). -/
def Mnemonic.all : List Mnemonic :=
  [.sll, .srl, .mfhi, .mflo, .mult, .multu, .div, .add, .addu, .sub, .subu, .and, .or, .j,
   .addi, .addiu, .andi, .ori, .lui, .lw, .sw]

/-- The format column of 30_encoding.md R112. -/
def Mnemonic.format : Mnemonic → Format
  | .sll | .srl | .mfhi | .mflo | .mult | .multu | .div => .r
  | .add | .addu | .sub | .subu | .and | .or => .r
  | .j => .j
  | .addi | .addiu | .andi | .ori | .lui | .lw | .sw => .i

/-- The operand syntax column of 30_encoding.md R112 (also R121, R123, R147). -/
def Mnemonic.operandSyntax : Mnemonic → List OperandRole
  | .sll | .srl => [.rd, .rt, .shamt]
  | .mfhi | .mflo => [.rd]
  | .mult | .multu | .div => [.rs, .rt]
  | .add | .addu | .sub | .subu | .and | .or => [.rd, .rs, .rt]
  | .j => [.address]
  | .addi | .addiu | .andi | .ori => [.rt, .rs, .immediate]
  | .lui => [.rt, .immediate]
  | .lw | .sw => [.rt, .offsetBase]

/-- The descriptor's symbol, in lower case as the canonical text writes it (30_encoding.md R110, R150). -/
def Mnemonic.symbol : Mnemonic → List Char
  | .sll => "sll".toList | .srl => "srl".toList
  | .mfhi => "mfhi".toList | .mflo => "mflo".toList
  | .mult => "mult".toList | .multu => "multu".toList | .div => "div".toList
  | .add => "add".toList | .addu => "addu".toList | .sub => "sub".toList | .subu => "subu".toList
  | .and => "and".toList | .or => "or".toList
  | .j => "j".toList
  | .addi => "addi".toList | .addiu => "addiu".toList | .andi => "andi".toList | .ori => "ori".toList
  | .lui => "lui".toList | .lw => "lw".toList | .sw => "sw".toList

/-- The standard MIPS I numbers, the default CATALOG (30_encoding.md R112; the spec's own choice, D1). -/
def Catalog.standard : Catalog where
  sll   := 0x00
  srl   := 0x02
  mfhi  := 0x10
  mflo  := 0x12
  mult  := 0x18
  multu := 0x19
  div   := 0x1A
  add   := 0x20
  addu  := 0x21
  sub   := 0x22
  subu  := 0x23
  and   := 0x24
  or    := 0x25
  j     := 0x02
  addi  := 0x08
  addiu := 0x09
  andi  := 0x0C
  ori   := 0x0D
  lui   := 0x0F
  lw    := 0x23
  sw    := 0x2B

/-- The code of a mnemonic: its funct if R-format, else its opcode. -/
def Catalog.code (c : Catalog) : Mnemonic → BitVec 6
  | .sll => c.sll | .srl => c.srl | .mfhi => c.mfhi | .mflo => c.mflo
  | .mult => c.mult | .multu => c.multu | .div => c.div
  | .add => c.add | .addu => c.addu | .sub => c.sub | .subu => c.subu | .and => c.and | .or => c.or
  | .j => c.j
  | .addi => c.addi | .addiu => c.addiu | .andi => c.andi | .ori => c.ori
  | .lui => c.lui | .lw => c.lw | .sw => c.sw

/-- The opcode field of a mnemonic: 0 for every R-format one (30_encoding.md R104, R112). -/
def Catalog.opcode (c : Catalog) (m : Mnemonic) : BitVec 6 := if m.format = .r then 0 else c.code m

/-- The funct field of a mnemonic, "meaningful only for format R, default 0" (30_encoding.md R110). -/
def Catalog.funct (c : Catalog) (m : Mnemonic) : BitVec 6 := if m.format = .r then c.code m else 0

/-- The descriptor of a mnemonic (30_encoding.md R110). -/
def Catalog.descriptor (c : Catalog) (m : Mnemonic) : Descriptor where
  symbol        := m.symbol
  operandSyntax := m.operandSyntax
  format        := m.format
  opcode        := c.opcode m
  funct         := c.funct m

/-- The (opcode, funct) pair that dispatch looks a mnemonic up by (30_encoding.md R114). -/
def Catalog.key (c : Catalog) (m : Mnemonic) : BitVec 6 × BitVec 6 := (c.opcode m, c.funct m)

/-- The catalog invariant, checked at launch: no two mnemonics share an (opcode, funct) pair, and opcode 0 is R-format
alone (30_encoding.md R104, R111; a CATALOG that breaks it is refused, 70_reset_and_hazards.md R353). -/
def Catalog.valid (c : Catalog) : Bool :=
  Mnemonic.all.all fun m =>
    (m.format == .r || c.opcode m != 0) && Mnemonic.all.all fun n => m == n || c.key m != c.key n

/-- Lookup by mnemonic text folds case (30_encoding.md R113). -/
def lookupMnemonic (name : List Char) : Option Mnemonic :=
  Mnemonic.all.find? fun m => m.symbol == name.map Char.toLower

/-- The defaults of the launch parameters (00_scope.md R9). -/
def Params.standard : Params where
  zeroWrites := .kept
  jMode      := .stubNop
  resetPc    := 0x00000000
  catalog    := Catalog.standard

/-- The launch preconditions on the parameters: RESET_PC a multiple of 4 and a valid CATALOG
(70_reset_and_hazards.md R341, R353). -/
def Params.valid (p : Params) : Bool :=
  p.resetPc.toNat % Config.instructionWidth == 0 && p.catalog.valid

end Sys2Proof
end

