-- ==== Sys2Proof/WellFormed.lean ====
section
/-! DEFINITION. Which instructions have the form the encoder gives: fields the mnemonic does not use are 0
(30_encoding.md R121, R123). The decoder accepts the others too and they run all the same (R134). -/

namespace Sys2Proof

/-- Shift sub-pattern: `rs` is 0 (30_encoding.md R121). -/
def shiftFieldsOk (f : RFields) : Bool := f.rs == 0

/-- Move-from-hi/lo sub-pattern: `rs`, `rt` and `shamt` are 0 (30_encoding.md R121). -/
def moveFieldsOk (f : RFields) : Bool := f.rs == 0 && f.rt == 0 && f.shamt == 0

/-- Multiply/divide sub-pattern: `rd` and `shamt` are 0 (30_encoding.md R121). -/
def mulDivFieldsOk (f : RFields) : Bool := f.rd == 0 && f.shamt == 0

/-- Default R sub-pattern: `shamt` is 0 (30_encoding.md R121). -/
def aluFieldsOk (f : RFields) : Bool := f.shamt == 0

/-- Upper-immediate sub-pattern: "rs forced to $zero" (30_encoding.md R123). -/
def upperFieldsOk (f : IFields) : Bool := f.rs == 0

/-- The instruction is one that the encoder can have built: its unused fields are 0. -/
def Instr.wellFormed : Instr → Bool
  | .sll f => shiftFieldsOk f
  | .srl f => shiftFieldsOk f
  | .mfhi f => moveFieldsOk f
  | .mflo f => moveFieldsOk f
  | .mult f => mulDivFieldsOk f
  | .multu f => mulDivFieldsOk f
  | .div f => mulDivFieldsOk f
  | .add f => aluFieldsOk f
  | .addu f => aluFieldsOk f
  | .sub f => aluFieldsOk f
  | .subu f => aluFieldsOk f
  | .and f => aluFieldsOk f
  | .or f => aluFieldsOk f
  | .j _ => true
  | .addi _ => true
  | .addiu _ => true
  | .andi _ => true
  | .ori _ => true
  | .lui f => upperFieldsOk f
  | .lw _ => true
  | .sw _ => true

end Sys2Proof
end

