-- ==== Sys2Proof/Decode.lean ====
section
/-! DEFINITION. The decoder engines, the dispatch mux and decode (30_encoding.md R130 to R137), then the encoder that builds
an instruction's word from the same layouts (R100 to R102). Both take the CATALOG parameter. -/

namespace Sys2Proof

/-- Bits 31..26. -/
def opcodeField (w : Word) : BitVec 6 := w.extractLsb' 26 6

/-- Bits 5..0. -/
def functField (w : Word) : BitVec 6 := w.extractLsb' 0 6

/-- The operand fields of an R-format word (30_encoding.md R100). -/
def rFields (w : Word) : RFields where
  rs    := w.extractLsb' 21 5
  rt    := w.extractLsb' 16 5
  rd    := w.extractLsb' 11 5
  shamt := w.extractLsb' 6 5

/-- The operand fields of an I-format word (30_encoding.md R101). -/
def iFields (w : Word) : IFields where
  rs  := w.extractLsb' 21 5
  rt  := w.extractLsb' 16 5
  imm := w.extractLsb' 0 16

/-- The operand field of a J-format word (30_encoding.md R102). -/
def jFields (w : Word) : JFields where
  target := w.extractLsb' 0 26

/-- The R-format decoder: six raw fields of any word (30_encoding.md R130). -/
def disassembleR (w : Word) : RWord where
  opcode := opcodeField w
  rs     := (rFields w).rs
  rt     := (rFields w).rt
  rd     := (rFields w).rd
  shamt  := (rFields w).shamt
  funct  := functField w

/-- The I-format decoder: the immediate comes sign-extended from 16 bits (30_encoding.md R131). -/
def disassembleI (w : Word) : IWord where
  opcode := opcodeField w
  rs     := (iFields w).rs
  rt     := (iFields w).rt
  imm    := (iFields w).imm.signExtend 32

/-- The J-format decoder: the address field raw (30_encoding.md R132). -/
def disassembleJ (w : Word) : JWord where
  opcode := opcodeField w
  target := (jFields w).target

/-- Whether dispatch selects `m` for the word: under opcode 0 the R-format descriptor with its funct, else the I- or
J-format descriptor with its opcode (30_encoding.md R114, R135). -/
def Catalog.selects (c : Catalog) (w : Word) (m : Mnemonic) : Bool :=
  if opcodeField w = 0 then m.format == .r && c.funct m == functField w
  else m.format != .r && c.opcode m == opcodeField w

/-- The dispatch mux (30_encoding.md R135); `none`: the word is no instruction of this core. -/
def dispatch (c : Catalog) (w : Word) : Option Mnemonic := Mnemonic.all.find? (c.selects w)

/-- The instruction a mnemonic stands for with the operand fields of a word. -/
def instrOf (m : Mnemonic) (w : Word) : Instr :=
  match m with
  | .sll => .sll (rFields w)
  | .srl => .srl (rFields w)
  | .mfhi => .mfhi (rFields w)
  | .mflo => .mflo (rFields w)
  | .mult => .mult (rFields w)
  | .multu => .multu (rFields w)
  | .div => .div (rFields w)
  | .add => .add (rFields w)
  | .addu => .addu (rFields w)
  | .sub => .sub (rFields w)
  | .subu => .subu (rFields w)
  | .and => .and (rFields w)
  | .or => .or (rFields w)
  | .j => .j (jFields w)
  | .addi => .addi (iFields w)
  | .addiu => .addiu (iFields w)
  | .andi => .andi (iFields w)
  | .ori => .ori (iFields w)
  | .lui => .lui (iFields w)
  | .lw => .lw (iFields w)
  | .sw => .sw (iFields w)

/-- Why dispatch finds no descriptor (30_encoding.md R136). -/
def rejectReason (w : Word) : DecodeReject :=
  if opcodeField w = 0 then .unassignedFunct (functField w) else .unassignedOpcode (opcodeField w)

/-- Decode: dispatch, then the selected format's fields. Total on every word; a word with no descriptor is rejected by
name (30_encoding.md R133, R135, R136). -/
def decode (c : Catalog) (w : Word) : Except DecodeReject Instr :=
  match dispatch c w with
  | some m => .ok (instrOf m w)
  | none => .error (rejectReason w)

/-- The host's decoder of one opcode-table row, under the default CATALOG: memory holds whole Words, so bit 0 of the
table is bit 0 of the Word, and the bits at and above `nbits` are 0. -/
def decodeTableWord (nbits w : Nat) : Option Instr :=
  (decode Catalog.standard (BitVec.ofNat 32 (w % 2 ^ nbits))).toOption

/-- The R layout: opcode, rs, rt, rd, shamt, funct from the top (30_encoding.md R100). -/
def rWord (opcode : BitVec 6) (f : RFields) (funct : BitVec 6) : Word :=
  opcode ++ f.rs ++ f.rt ++ f.rd ++ f.shamt ++ funct

/-- The I layout: opcode, rs, rt, immediate from the top (30_encoding.md R101). -/
def iWord (opcode : BitVec 6) (f : IFields) : Word := opcode ++ f.rs ++ f.rt ++ f.imm

/-- The J layout: opcode, address from the top (30_encoding.md R102). -/
def jWord (opcode : BitVec 6) (f : JFields) : Word := opcode ++ f.target

/-- The R-format word of a mnemonic under a CATALOG. -/
def Catalog.encodeR (c : Catalog) (m : Mnemonic) (f : RFields) : Word := rWord (c.opcode m) f (c.funct m)

/-- The I-format word of a mnemonic under a CATALOG. -/
def Catalog.encodeI (c : Catalog) (m : Mnemonic) (f : IFields) : Word := iWord (c.opcode m) f

/-- The J-format word of a mnemonic under a CATALOG. -/
def Catalog.encodeJ (c : Catalog) (m : Mnemonic) (f : JFields) : Word := jWord (c.opcode m) f

/-- The word of an instruction under a CATALOG, every field in its place (30_encoding.md R100 to R102, R112). -/
def encode (c : Catalog) : Instr → Word
  | .sll f => c.encodeR .sll f
  | .srl f => c.encodeR .srl f
  | .mfhi f => c.encodeR .mfhi f
  | .mflo f => c.encodeR .mflo f
  | .mult f => c.encodeR .mult f
  | .multu f => c.encodeR .multu f
  | .div f => c.encodeR .div f
  | .add f => c.encodeR .add f
  | .addu f => c.encodeR .addu f
  | .sub f => c.encodeR .sub f
  | .subu f => c.encodeR .subu f
  | .and f => c.encodeR .and f
  | .or f => c.encodeR .or f
  | .j f => c.encodeJ .j f
  | .addi f => c.encodeI .addi f
  | .addiu f => c.encodeI .addiu f
  | .andi f => c.encodeI .andi f
  | .ori f => c.encodeI .ori f
  | .lui f => c.encodeI .lui f
  | .lw f => c.encodeI .lw f
  | .sw f => c.encodeI .sw f

/-- The mnemonic of an instruction. -/
def Instr.mnemonic : Instr → Mnemonic
  | .sll _ => .sll | .srl _ => .srl | .mfhi _ => .mfhi | .mflo _ => .mflo
  | .mult _ => .mult | .multu _ => .multu | .div _ => .div
  | .add _ => .add | .addu _ => .addu | .sub _ => .sub | .subu _ => .subu | .and _ => .and | .or _ => .or
  | .j _ => .j
  | .addi _ => .addi | .addiu _ => .addiu | .andi _ => .andi | .ori _ => .ori
  | .lui _ => .lui | .lw _ => .lw | .sw _ => .sw

end Sys2Proof
end

