-- ==== Sys2Proof/Machine/BitField.lean ====
section
/-! DEFINITION. The bit-field primitives: the source's BitField Utilities (00_scope.md R10 to R15, §5). -/

namespace Sys2Proof

/-- `w32(n)`: the Word whose unsigned reading is n mod 2^32 (00_scope.md §5). -/
def w32 (n : Int) : Word := BitVec.ofInt 32 n

/-- `toSigned`, the reading `s(v)` (00_scope.md R13). -/
def toSigned (v : Word) : Int := v.toInt

/-- `toUnsigned(n) = u(w32(n))` (00_scope.md R13, for n in -2^31 .. 2^32-1). DESIGN CHOICE, safe: the formula also answers for
every other n (log entry 18). -/
def toUnsigned (n : Int) : Nat := (w32 n).toNat

/-- `asUnsigned(value, bits) = value mod 2^bits` (00_scope.md R14, for `bits` in 1..32). DESIGN CHOICE, safe: the formula also
answers for every other `bits` (log entry 18). -/
def asUnsigned (value : Int) (bits : Nat) : Int := value % 2 ^ bits

/-- `asSigned(value, bits)`: mask to `bits` bits, then read as two's complement (00_scope.md R14, for `bits` in 1..32).
DESIGN CHOICE, safe: the formula also answers for every other `bits` (log entry 18). -/
def asSigned (value : Int) (bits : Nat) : Int :=
  let m := value % 2 ^ bits
  if m < 2 ^ (bits - 1) then m else m - 2 ^ bits

/-- The bounds every field range must meet: 0 ≤ from ≤ to ≤ 31 (00_scope.md R10). -/
def rangeOk (hi lo : Int) : Bool := decide (0 ≤ lo ∧ lo ≤ hi ∧ hi ≤ 31)

/-- `getBits(word, to, from)` (00_scope.md R10). -/
def getBits (w : Word) (hi lo : Int) : Except AsmError Nat :=
  if rangeOk hi lo then .ok (w.toNat / 2 ^ lo.toNat % 2 ^ (hi - lo + 1).toNat) else .error .invalidRange

/-- The word with bits `lo` to `hi` set and the rest clear. -/
def fieldMask (hi lo : Nat) : Word := BitVec.ofNat 32 ((2 ^ (hi - lo + 1) - 1) * 2 ^ lo)

/-- `setBits(word, bits, to, from)` (00_scope.md R11). DESIGN CHOICE, safe: where the range is bad and `bits` does not fit
either, both failures of R11 apply and it ranks neither; the range is checked first, so the error is `InvalidRange` (log
entry 18). -/
def setBits (w : Word) (bits : Int) (hi lo : Int) : Except AsmError Word :=
  if rangeOk hi lo then
    if 0 ≤ bits ∧ bits ≤ 2 ^ (hi - lo + 1).toNat - 1 then
      .ok ((w &&& ~~~fieldMask hi.toNat lo.toNat) ||| (w32 bits <<< lo.toNat))
    else .error .fieldOverflow
  else .error .invalidRange

end Sys2Proof
end

