-- ==== Sys2Proof/Machine/Flags.lean ====
section
/-! DEFINITION. The overflow predicates of the ALU (00_scope.md R16, R17). The core has no flags and no condition codes
(10_state.md R42): signed overflow is a fatal error, and nothing else is recorded. -/

namespace Sys2Proof

/-- The exact integer lies outside -2^31 .. 2^31-1 (00_scope.md R16). -/
def detectSignedOverflow (r : Int) : Bool := decide (r < -2 ^ 31 ∨ 2 ^ 31 - 1 < r)

/-- The exact integer lies outside 0 .. 2^32-1 (00_scope.md R16); no instruction uses it (R17). -/
def detectUnsignedOverflow (r : Int) : Bool := decide (r < 0 ∨ 2 ^ 32 - 1 < r)

end Sys2Proof
end

