-- ==== Sys2Proof/Machine/State.lean ====
section
/-! DEFINITION. The state of the machine, the reasons a step can stop, and the state after reset (10_state.md,
60_exceptions.md R310 to R314, 70_reset_and_hazards.md R340). -/

namespace Sys2Proof.Machine

/-- The kinds of fatal error (10_state.md R45, 60_exceptions.md R310 to R314). They are no stop of the model: a fatal error
is a next state whose `status` records it. -/
inductive ErrorKind where
  /-- Signed overflow in ADD, SUB, ADDI (R310). -/
  | integerOverflow
  /-- LW of an address with no value (R311). -/
  | memoryAccessError
  /-- A word with no descriptor (R312). -/
  | unknownInstruction
  /-- No value at the pc (R313). -/
  | fetchMiss
  /-- J under `J_MODE = NotImplementedFault` (R314). -/
  | notImplemented
  deriving DecidableEq, Repr

/-- The run status (10_state.md R45). -/
inductive Status where
  | ready
  | faulted (kind : ErrorKind) (errPc errInfo : Word)
  deriving DecidableEq, Repr

/-- Memory: the collaborator's partial map from exact 32-bit addresses to whole Words (20_memory.md R73, R75, R78), as its
listed (address, word) pairs. In canonical form the addresses rise strictly and are below 2^32; an unlisted address has no
value. A byte list could not say this: Mem(0x2000) and Mem(0x2001) are two independent Words (R78). -/
structure Memory where
  cells : List (Nat × Word)
  deriving DecidableEq, Repr

/-- The whole state (10_state.md R30). `instruction_width` is the constant `Config.instructionWidth`. -/
structure State where
  /-- The general registers x[0..31] (R31). -/
  regs    : Vector Word 32
  /-- The byte address of the next instruction (R37). -/
  pc      : Word
  /-- High half of a product, or remainder (R40). -/
  hi      : Word
  /-- Low half of a product, or quotient (R40). -/
  lo      : Word
  /-- The run status (R45). -/
  status  : Status
  /-- The memory collaborator's contents (20_memory.md R73). -/
  mem     : Memory
  /-- DESIGN CHOICE, safe: the JNotice events emitted so far, oldest first (R47); no rule reads it. -/
  notices : List Word
  /-- DESIGN CHOICE, safe: the launch parameters that a step or a reset reads (00_scope.md R9); nothing changes them after launch.
  END, which only a Run reads, is a function of the state and stands in `Launch` (Machine/Control.lean). -/
  params  : Params
  deriving DecidableEq, Repr

/-- The faults of the model. There is none: every error the spec describes is a fatal error, taken as a next state whose
`status` is Faulted (60_exceptions.md R300, R301), and the spec leaves no step without an effect. -/
inductive Fault where
  deriving DecidableEq, Repr

/-- The refusals of the model. No step answers one; `launch` raises the last two. -/
inductive Refusal where
  /-- An instruction that has no meaning yet. Raised by no arm of `exec`: every one has its meaning. Safe. -/
  | notModelled (mnemonic : String)
  /-- Raised by `launch` when RESET_PC is not a multiple of 4: "A model refuses a launch whose RESET_PC is not"
  (70_reset_and_hazards.md R341). Safe. -/
  | misalignedResetPc
  /-- Raised by `launch` when the CATALOG breaks 30_encoding.md R111 (70_reset_and_hazards.md R353, U4). Safe. -/
  | invalidCatalog
  deriving DecidableEq, Repr

/-- The state after `Reset` under given parameters, memory contents and event trace (70_reset_and_hazards.md R340). -/
def State.afterReset (p : Params) (m : Memory) (events : List Word) : State where
  regs    := Vector.replicate 32 0x00000000
  pc      := p.resetPc
  hi      := 0x00000000
  lo      := 0x00000000
  status  := .ready
  mem     := m
  notices := events
  params  := p

/-- The machine right after reset with the default parameters: nothing in memory yet, no event emitted (R340, R350). -/
def State.reset : State := State.afterReset Params.standard ⟨[]⟩ []

end Sys2Proof.Machine
end

