-- ==== Sys2Proof/Machine/Ops.lean ====
section
/-! DEFINITION. The named operations over memory, registers, pc and status, and taking a fatal error as one shared operation
(10_state.md R33 to R40, 20_memory.md R71 to R73, 60_exceptions.md R301). -/

namespace Sys2Proof.Machine

/-- What every meaning answers. -/
abbrev Result := Host.Outcome State Fault Refusal

/-! Memory. -/

/-- The Word listed at an address, if any. -/
def lookupCell : List (Nat × Word) → Nat → Option Word
  | [], _ => none
  | (k, v) :: rest, a => if k = a then some v else lookupCell rest a

/-- The list with the Word at an address set, in the address's place. -/
def insertCell : List (Nat × Word) → Nat → Word → List (Nat × Word)
  | [], a, v => [(a, v)]
  | (k, u) :: rest, a, v =>
    if a < k then (a, v) :: (k, u) :: rest
    else if a = k then (a, v) :: rest
    else (k, u) :: insertCell rest a v

/-- Every listed address is at or above the bound, below 2^32, and above the one before it. -/
def risingFrom : Nat → List (Nat × Word) → Bool
  | _, [] => true
  | bound, (k, _) :: rest => decide (bound ≤ k) && decide (k < 2 ^ 32) && risingFrom (k + 1) rest

/-- The canonical form: addresses strictly rising and below 2^32. -/
def Memory.wf (m : Memory) : Bool := risingFrom 0 m.cells

/-- `fetch(a)`: the exact address's Word, or no value (20_memory.md R71, R73). -/
def Memory.fetch (m : Memory) (a : Word) : Option Word := lookupCell m.cells a.toNat

/-- `store(a, v)`: sets the exact address's Word and no other; it always succeeds (20_memory.md R72, R73). -/
def Memory.store (m : Memory) (a : Word) (v : Word) : Memory := ⟨insertCell m.cells a.toNat v⟩

/-! Registers, pc, events. -/

/-- `x[i]`. Under Discarded x[0] is always 0 (10_state.md R34). -/
def State.readReg (s : State) (i : RegIndex) : Word :=
  if i = 0 ∧ s.params.zeroWrites = .discarded then 0 else s.regs[i.toNat]'i.isLt

/-- `x[i] <- v`. Under Discarded a write of register 0 has no effect (10_state.md R33). -/
def State.writeReg (s : State) (i : RegIndex) (v : Word) : State :=
  if i = 0 ∧ s.params.zeroWrites = .discarded then s
  else { s with regs := s.regs.set i.toNat v i.isLt }

/-- `hi` and `lo` are written together (10_state.md R40). -/
def State.writeHiLo (s : State) (hi lo : Word) : State := { s with hi := hi, lo := lo }

/-- `MemWrite(a, 4, v)` (20_memory.md R72). -/
def State.memWrite (s : State) (a v : Word) : State := { s with mem := s.mem.store a v }

/-- `MemRead(a, 4)` (20_memory.md R71). -/
def State.memRead (s : State) (a : Word) : Option Word := s.mem.fetch a

/-- `emit JNotice(pc)` (10_state.md R47, 43_jump.md R250). -/
def State.emitNotice (s : State) : State := { s with notices := s.notices ++ [s.pc] }

/-- `next_pc = w32(u(pc) + 4)` (00_scope.md R21, 10_state.md R38). -/
def nextPc (pc : Word) : Word := w32 (pc.toNat + Config.instructionWidth)

/-- `pc <- next_pc`. -/
def State.advance (s : State) : State := { s with pc := nextPc s.pc }

/-! Completing an instruction, and taking a fatal error. -/

/-- The instruction completes: its writes are in, and the pc advances (10_state.md R38). -/
def complete (s : State) : Result := .next s.advance

/-- The status after `raise kind(info)` at a pc (60_exceptions.md R301). -/
def faultStatus (kind : ErrorKind) (pc info : Word) : Status := .faulted kind pc info

/-- Taking a fatal error: `raise kind(info)`. It commits no write of the step and records the kind, the pc of the
instruction and the context (60_exceptions.md R301, R302). There is no return from it but `Reset` (R322). -/
def State.raise (s : State) (kind : ErrorKind) (info : Word) : State :=
  { s with status := faultStatus kind s.pc info }

/-- A step that ends in a fatal error. -/
def failWith (kind : ErrorKind) (info : Word) (s : State) : Result := .next (s.raise kind info)

/-- The numeric code of an error kind in the status output (60_exceptions.md R310 to R314). -/
def errorCode : ErrorKind → Nat
  | .integerOverflow => 1
  | .memoryAccessError => 2
  | .unknownInstruction => 3
  | .fetchMiss => 4
  | .notImplemented => 5

end Sys2Proof.Machine
end

