-- ==== Sys2Proof/Machine/Operands.lean ====
section
/-! DEFINITION. The operand forms: shift amount, sign- and zero-extended immediate, effective address (30_encoding.md R131,
44_alu_immediate.md R265, 45_load_store.md R282), and the instruction word a fatal error reports. -/

namespace Sys2Proof.Machine

/-- The shift amount 0..31 (40_shift.md R200). -/
def shiftAmount (f : RFields) : Nat := f.shamt.toNat

/-- `imm = sext_16(word[15:0])` (30_encoding.md R131): ADDI, ADDIU, LW, SW (44_alu_immediate.md R265). -/
def signedImm (f : IFields) : Word := f.imm.signExtend 32

/-- `zext_16(imm[15:0])`: ANDI, ORI, LUI (44_alu_immediate.md R265, 90_conflicts.md C9). -/
def zeroImm (f : IFields) : Word := f.imm.zeroExtend 32

/-- `ea = w32(u(x[rs]) + s(imm))`, the only addressing mode; never checked for alignment (45_load_store.md R280, R282). -/
def effectiveAddress (s : State) (f : IFields) : Word :=
  w32 ((s.readReg f.rs).toNat + toSigned (signedImm f))

/-- The word of the instruction being executed, which `IntegerOverflow` and `NotImplemented` report
(60_exceptions.md R310, R314). -/
def instructionWord (s : State) (i : Instr) : Word := encode s.params.catalog i

end Sys2Proof.Machine
end

