-- ==== Sys2Proof/Machine/Alu.lean ====
section
/-! DEFINITION. ADD, ADDU, SUB, SUBU, AND, OR (42_alu_register.md) and the checked signed result they share with ADDI. -/

namespace Sys2Proof.Machine

/-- A signed result with the overflow check: outside -2^31..2^31-1 it is the fatal `IntegerOverflow`, with nothing written;
else it goes to the destination (42_alu_register.md R230, R232, 44_alu_immediate.md R260). -/
def completeSigned (i : Instr) (dst : RegIndex) (r : Int) (s : State) : Result :=
  if detectSignedOverflow r then failWith .integerOverflow (instructionWord s i) s
  else complete (s.writeReg dst (w32 r))

/-- ADD (42_alu_register.md R230). -/
def execAdd (f : RFields) (s : State) : Result :=
  completeSigned (.add f) f.rd (toSigned (s.readReg f.rs) + toSigned (s.readReg f.rt)) s

/-- ADDU (42_alu_register.md R231). -/
def execAddu (f : RFields) (s : State) : Result :=
  complete (s.writeReg f.rd (w32 ((s.readReg f.rs).toNat + (s.readReg f.rt).toNat)))

/-- SUB (42_alu_register.md R232). -/
def execSub (f : RFields) (s : State) : Result :=
  completeSigned (.sub f) f.rd (toSigned (s.readReg f.rs) - toSigned (s.readReg f.rt)) s

/-- SUBU: the difference modulo 2^32 (42_alu_register.md R233). -/
def execSubu (f : RFields) (s : State) : Result :=
  complete (s.writeReg f.rd (w32 (((s.readReg f.rs).toNat : Int) - (s.readReg f.rt).toNat)))

/-- AND (42_alu_register.md R234). -/
def execAnd (f : RFields) (s : State) : Result :=
  complete (s.writeReg f.rd (s.readReg f.rs &&& s.readReg f.rt))

/-- OR (42_alu_register.md R235). -/
def execOr (f : RFields) (s : State) : Result :=
  complete (s.writeReg f.rd (s.readReg f.rs ||| s.readReg f.rt))

end Sys2Proof.Machine
end

