-- ==== Sys2Proof/Machine/AluImmediate.lean ====
section
/-! DEFINITION. ADDI, ADDIU, ANDI, ORI, LUI (44_alu_immediate.md). -/

namespace Sys2Proof.Machine

/-- ADDI (44_alu_immediate.md R260). -/
def execAddi (f : IFields) (s : State) : Result :=
  completeSigned (.addi f) f.rt (toSigned (s.readReg f.rs) + toSigned (signedImm f)) s

/-- ADDIU (44_alu_immediate.md R261). -/
def execAddiu (f : IFields) (s : State) : Result :=
  complete (s.writeReg f.rt (w32 ((s.readReg f.rs).toNat + (signedImm f).toNat)))

/-- ANDI (44_alu_immediate.md R262). -/
def execAndi (f : IFields) (s : State) : Result :=
  complete (s.writeReg f.rt (s.readReg f.rs &&& zeroImm f))

/-- ORI (44_alu_immediate.md R263). -/
def execOri (f : IFields) (s : State) : Result :=
  complete (s.writeReg f.rt (s.readReg f.rs ||| zeroImm f))

/-- LUI (44_alu_immediate.md R264). -/
def execLui (f : IFields) (s : State) : Result :=
  complete (s.writeReg f.rt (w32 ((zeroImm f).toNat * 2 ^ 16)))

end Sys2Proof.Machine
end

