-- ==== Sys2Proof/Machine/Jump.lean ====
section
/-! DEFINITION. J, a documented stub: it never computes a target (43_jump.md R250 to R253). -/

namespace Sys2Proof.Machine

/-- J: under StubNop it emits JNotice(pc) and the pc advances (43_jump.md R250); under NotImplementedFault it is the fatal
`NotImplemented` (R251). -/
def execJ (f : JFields) (s : State) : Result :=
  match s.params.jMode with
  | .stubNop => complete s.emitNotice
  | .notImplementedFault => failWith .notImplemented (instructionWord s (.j f)) s

end Sys2Proof.Machine
end

