-- ==== Sys2Proof/Machine/LoadStore.lean ====
section
/-! DEFINITION. LW and SW (45_load_store.md). -/

namespace Sys2Proof.Machine

/-- LW: an address with no value is the fatal `MemoryAccessError(ea)`, with nothing written (45_load_store.md R280). -/
def execLw (f : IFields) (s : State) : Result :=
  match s.memRead (effectiveAddress s f) with
  | none => failWith .memoryAccessError (effectiveAddress s f) s
  | some v => complete (s.writeReg f.rt v)

/-- SW: it always succeeds (45_load_store.md R281, 20_memory.md R72). -/
def execSw (f : IFields) (s : State) : Result :=
  complete (s.memWrite (effectiveAddress s f) (s.readReg f.rt))

end Sys2Proof.Machine
end

