-- ==== Sys2Proof/Machine/MulDiv.lean ====
section
/-! DEFINITION. The hi/lo controller: MFHI, MFLO, MULT, MULTU, DIV (41_muldiv_hilo.md). -/

namespace Sys2Proof.Machine

/-- Splits a 64-bit product pattern over hi and lo (41_muldiv_hilo.md R212). -/
def State.writeProduct (s : State) (p : BitVec 64) : State :=
  s.writeHiLo (p.extractLsb' 32 32) (p.extractLsb' 0 32)

/-- The quotient and remainder of DIV: truncating division, both 0 for a zero divisor (41_muldiv_hilo.md R214, R215). -/
def divide (a b : Int) : Int × Int :=
  if b = 0 then (0, 0) else (Int.tdiv a b, a - b * Int.tdiv a b)

/-- MFHI (41_muldiv_hilo.md R210). -/
def execMfhi (f : RFields) (s : State) : Result := complete (s.writeReg f.rd s.hi)

/-- MFLO (41_muldiv_hilo.md R211). -/
def execMflo (f : RFields) (s : State) : Result := complete (s.writeReg f.rd s.lo)

/-- MULT: the signed 64-bit product (41_muldiv_hilo.md R212). -/
def execMult (f : RFields) (s : State) : Result :=
  complete (s.writeProduct (BitVec.ofInt 64 (toSigned (s.readReg f.rs) * toSigned (s.readReg f.rt))))

/-- MULTU: the unsigned 64-bit product (41_muldiv_hilo.md R213). -/
def execMultu (f : RFields) (s : State) : Result :=
  complete (s.writeProduct (BitVec.ofNat 64 ((s.readReg f.rs).toNat * (s.readReg f.rt).toNat)))

/-- DIV: quotient into lo, remainder into hi, never an error (41_muldiv_hilo.md R214, 60_exceptions.md R316). -/
def execDiv (f : RFields) (s : State) : Result :=
  complete (s.writeHiLo (w32 (divide (toSigned (s.readReg f.rs)) (toSigned (s.readReg f.rt))).2)
    (w32 (divide (toSigned (s.readReg f.rs)) (toSigned (s.readReg f.rt))).1))

end Sys2Proof.Machine
end

