-- ==== Sys2Proof/Machine/Shift.lean ====
section
/-! DEFINITION. SLL and SRL (40_shift.md). -/

namespace Sys2Proof.Machine

/-- SLL (40_shift.md R200). -/
def execSll (f : RFields) (s : State) : Result :=
  complete (s.writeReg f.rd (w32 ((s.readReg f.rt).toNat * 2 ^ shiftAmount f)))

/-- SRL (40_shift.md R201). -/
def execSrl (f : RFields) (s : State) : Result :=
  complete (s.writeReg f.rd (w32 ((s.readReg f.rt).toNat / 2 ^ shiftAmount f)))

end Sys2Proof.Machine
end

