-- ==== Sys2Proof/Machine/Dispatch.lean ====
section
/-! DEFINITION. The execute stage: one arm per instruction, in the catalog's order (10_state.md R50, 30_encoding.md R112). -/

namespace Sys2Proof.Machine

def exec (i : Instr) (s : State) : Host.Outcome State Fault Refusal :=
  match i with
  -- 40_shift.md
  | .sll f => Sys2Proof.Machine.execSll f s
  | .srl f => Sys2Proof.Machine.execSrl f s
  -- 41_muldiv_hilo.md
  | .mfhi f => Sys2Proof.Machine.execMfhi f s
  | .mflo f => Sys2Proof.Machine.execMflo f s
  | .mult f => Sys2Proof.Machine.execMult f s
  | .multu f => Sys2Proof.Machine.execMultu f s
  | .div f => Sys2Proof.Machine.execDiv f s
  -- 42_alu_register.md
  | .add f => Sys2Proof.Machine.execAdd f s
  | .addu f => Sys2Proof.Machine.execAddu f s
  | .sub f => Sys2Proof.Machine.execSub f s
  | .subu f => Sys2Proof.Machine.execSubu f s
  | .and f => Sys2Proof.Machine.execAnd f s
  | .or f => Sys2Proof.Machine.execOr f s
  -- 43_jump.md
  | .j f => Sys2Proof.Machine.execJ f s
  -- 44_alu_immediate.md
  | .addi f => Sys2Proof.Machine.execAddi f s
  | .addiu f => Sys2Proof.Machine.execAddiu f s
  | .andi f => Sys2Proof.Machine.execAndi f s
  | .ori f => Sys2Proof.Machine.execOri f s
  | .lui f => Sys2Proof.Machine.execLui f s
  -- 45_load_store.md
  | .lw f => Sys2Proof.Machine.execLw f s
  | .sw f => Sys2Proof.Machine.execSw f s

end Sys2Proof.Machine
end

