-- ==== Sys2Proof/Machine/Fetch.lean ====
section
/-! DEFINITION. The fetch and decode stages of a step (10_state.md R50, 60_exceptions.md R320), and placing a word where the
next step fetches. -/

namespace Sys2Proof.Machine

/-- Fetch the word at the pc and decode it. A miss is `FetchMiss(pc)`, an undecodable word `UnknownInstruction(word)`, in
that order (60_exceptions.md R312, R313, R320). -/
def fetchDecode (s : State) : Except (ErrorKind × Word) Instr :=
  match s.memRead s.pc with
  | none => .error (.fetchMiss, s.pc)
  | some w =>
    match decode s.params.catalog w with
    | .error _ => .error (.unknownInstruction, w)
    | .ok i => .ok i

/-- The state with a word at its pc and ready to step. -/
def placeAtPc (s : State) (w : Word) : State := { s.memWrite s.pc w with status := .ready }

end Sys2Proof.Machine
end

