-- ==== Sys2Proof/Machine/Step.lean ====
section
/-! DEFINITION. One step: fetch, decode, execute, commit (10_state.md R50). -/

namespace Sys2Proof.Machine

/-- `step()` (10_state.md R50). While Faulted it has no effect (R55). -/
def step (s : State) : Host.Outcome State Fault Refusal :=
  match s.status with
  | .faulted _ _ _ => .next s
  | .ready =>
    match fetchDecode s with
    | .error e => failWith e.1 e.2 s
    | .ok i => exec i s

/-- The host's placement of one opcode-table word where `step` fetches next: the Word at the pc. Status becomes Ready, since
a Faulted core runs nothing (10_state.md R46). -/
def State.withFetchWord (s : State) (nbits w : Nat) : State := placeAtPc s (BitVec.ofNat 32 (w % 2 ^ nbits))

end Sys2Proof.Machine
end

