-- ==== Sys2Proof/Machine/Assembler.lean ====
section
/-! DEFINITION. The encoder engines over field values (30_encoding.md R120 to R125), canonical text (R150, R151) and the
assembler's text front end (R140 to R147). None of it reads or writes the machine's state. -/

namespace Sys2Proof.Machine

/-- A text, a token or a name. -/
abbrev Text := List Char

/-- The operand values of one instruction, as integers before any range check; what no operand names is 0
(30_encoding.md R121, R123). -/
structure Operands where
  rs        : Int
  rt        : Int
  rd        : Int
  shamt     : Int
  immediate : Int
  address   : Int
  deriving DecidableEq, Repr

/-- No operand given yet: the zeros of 30_encoding.md R121 and R123. -/
def noOperands : Operands := ⟨0, 0, 0, 0, 0, 0⟩

/-! Encoder engines. -/

/-- 0 ≤ v ≤ 31: a register index or a shift amount (30_encoding.md R120). -/
def fitsFive (v : Int) : Bool := decide (0 ≤ v ∧ v ≤ 31)

/-- -32768 ≤ v ≤ 65535: an immediate or offset (30_encoding.md R122). -/
def fitsImmediate (v : Int) : Bool := decide (-32768 ≤ v ∧ v ≤ 65535)

/-- 0 ≤ v ≤ 2^32-1: an absolute byte address (30_encoding.md R124). -/
def fitsAddress (v : Int) : Bool := decide (0 ≤ v ∧ v ≤ 2 ^ 32 - 1)

/-- The R-format encoder (30_encoding.md R120). -/
def encodeRValues (c : Catalog) (m : Mnemonic) (rs rt rd shamt : Int) : Except AsmError Word :=
  if fitsFive rs && fitsFive rt && fitsFive rd && fitsFive shamt then
    .ok (c.encodeR m ⟨BitVec.ofInt 5 rs, BitVec.ofInt 5 rt, BitVec.ofInt 5 rd, BitVec.ofInt 5 shamt⟩)
  else .error .fieldOverflow

/-- The I-format encoder: the low 16 bits of the immediate (30_encoding.md R122). -/
def encodeIValues (c : Catalog) (m : Mnemonic) (rs rt v : Int) : Except AsmError Word :=
  if fitsFive rs && fitsFive rt && fitsImmediate v then
    .ok (c.encodeI m ⟨BitVec.ofInt 5 rs, BitVec.ofInt 5 rt, BitVec.ofInt 16 (asUnsigned v 16)⟩)
  else .error .fieldOverflow

/-- The J-format encoder: bits 27..2 of the byte address; the others are dropped (30_encoding.md R124, 90_conflicts.md C4). -/
def encodeJValues (c : Catalog) (m : Mnemonic) (address : Int) : Except AsmError Word :=
  if fitsAddress address then .ok (c.encodeJ m ⟨BitVec.ofInt 26 (address / 4)⟩)
  else .error .fieldOverflow

/-- Range-check and encode in the mnemonic's format (30_encoding.md R144 step 3). -/
def encodeOperands (c : Catalog) (m : Mnemonic) (o : Operands) : Except AsmError Word :=
  match m.format with
  | .r => encodeRValues c m o.rs o.rt o.rd o.shamt
  | .i => encodeIValues c m o.rs o.rt o.immediate
  | .j => encodeJValues c m o.address

/-! Canonical text. -/

/-- The operand values of a decoded instruction: the immediate as `s(imm)`, the address as `target26 << 2`
(30_encoding.md R151). -/
def operandsOf (i : Instr) : Operands :=
  let r (f : RFields) : Operands := ⟨f.rs.toNat, f.rt.toNat, f.rd.toNat, f.shamt.toNat, 0, 0⟩
  let im (f : IFields) : Operands := ⟨f.rs.toNat, f.rt.toNat, 0, 0, f.imm.toInt, 0⟩
  match i with
  | .sll f | .srl f | .mfhi f | .mflo f | .mult f | .multu f | .div f => r f
  | .add f | .addu f | .sub f | .subu f | .and f | .or f => r f
  | .j f => ⟨0, 0, 0, 0, 0, f.target.toNat * 4⟩
  | .addi f | .addiu f | .andi f | .ori f | .lui f | .lw f | .sw f => im f

/-- Plain decimal, with `-` for a negative number (30_encoding.md R150). -/
def decimalText (v : Int) : Text :=
  if v < 0 then '-' :: Nat.toDigits 10 v.natAbs else Nat.toDigits 10 v.natAbs

/-- `$<register-number>` (30_encoding.md R150). -/
def registerText (v : Int) : Text := '$' :: decimalText v

/-- One operand's canonical text (30_encoding.md R150, R151). -/
def operandText (o : Operands) : OperandRole → Text
  | .rd => registerText o.rd
  | .rs => registerText o.rs
  | .rt => registerText o.rt
  | .shamt => decimalText o.shamt
  | .immediate => decimalText o.immediate
  | .address => decimalText o.address
  | .offsetBase => decimalText o.immediate ++ '(' :: registerText o.rs ++ [')']

/-- The lowercase mnemonic, then each operand after one space, in syntax order (30_encoding.md R150). -/
def canonicalText (i : Instr) : Text :=
  i.mnemonic.symbol ++ i.mnemonic.operandSyntax.flatMap fun role => ' ' :: operandText (operandsOf i) role

/-! Text front end. -/

/-- Tokens are separated by any run of commas and whitespace (30_encoding.md R140). -/
def isDelimiter (c : Char) : Bool := c == ',' || c.isWhitespace

/-- Splits a text into tokens; `acc` is the token being read, last character first. -/
def tokensFrom : Text → Text → List Text
  | [], acc => if acc.isEmpty then [] else [acc.reverse]
  | c :: rest, acc =>
    if isDelimiter c then
      if acc.isEmpty then tokensFrom rest [] else acc.reverse :: tokensFrom rest []
    else tokensFrom rest (c :: acc)

/-- The tokens of a line (30_encoding.md R140). -/
def tokens (line : Text) : List Text := tokensFrom line []

/-- The MIPS o32 register names, in index order (10_state.md R32, the spec's choice D2). -/
def registerNames : List Text :=
  ["$zero".toList, "$at".toList, "$v0".toList, "$v1".toList, "$a0".toList, "$a1".toList, "$a2".toList, "$a3".toList,
   "$t0".toList, "$t1".toList, "$t2".toList, "$t3".toList, "$t4".toList, "$t5".toList, "$t6".toList, "$t7".toList,
   "$s0".toList, "$s1".toList, "$s2".toList, "$s3".toList, "$s4".toList, "$s5".toList, "$s6".toList, "$s7".toList,
   "$t8".toList, "$t9".toList, "$k0".toList, "$k1".toList, "$gp".toList, "$sp".toList, "$fp".toList, "$ra".toList]

/-- Every accepted register name with its index: the table, the alias `$s8`, and `$0` to `$31` (10_state.md R32). -/
def registerTable : List (Text × Nat) :=
  registerNames.zipIdx ++ [("$s8".toList, 30)] ++ (List.range 32).map fun n => ('$' :: Nat.toDigits 10 n, n)

/-- A register operand: an exact, case-sensitive name (30_encoding.md R141). -/
def parseRegister (t : Text) : Except AsmError Int :=
  match registerTable.find? (fun e => e.1 == t) with
  | some e => .ok e.2
  | none => .error .invalidOperands

/-- The value of a digit character, up to base 16. -/
def digitValue (c : Char) : Option Nat :=
  if '0' ≤ c ∧ c ≤ '9' then some (c.toNat - 48)
  else if 'a' ≤ c ∧ c ≤ 'f' then some (c.toNat - 87)
  else if 'A' ≤ c ∧ c ≤ 'F' then some (c.toNat - 55)
  else none

/-- The digits of a number in a base, after the value read so far. -/
def parseDigitsFrom (base : Nat) : Nat → Text → Option Nat
  | acc, [] => some acc
  | acc, c :: rest =>
    match digitValue c with
    | some d => if d < base then parseDigitsFrom base (acc * base + d) rest else none
    | none => none

/-- At least one digit. -/
def parseDigits (base : Nat) (t : Text) : Option Nat :=
  if t.isEmpty then none else parseDigitsFrom base 0 t

/-- Decimal digits, or `0x` or `0X` and hexadecimal digits (30_encoding.md R142). -/
def parseUnsigned : Text → Option Nat
  | '0' :: 'x' :: rest => parseDigits 16 rest
  | '0' :: 'X' :: rest => parseDigits 16 rest
  | t => parseDigits 10 t

/-- A numeric token: an optional `-`, then an unsigned number (30_encoding.md R142). -/
def parseInt : Text → Option Int
  | '-' :: rest => (parseUnsigned rest).map fun n => -(n : Int)
  | t => (parseUnsigned t).map fun n => (n : Int)

/-- A numeric operand; any other token is `InvalidOperands` (30_encoding.md R142). -/
def parseNumber (t : Text) : Except AsmError Int :=
  match parseInt t with
  | some v => .ok v
  | none => .error .invalidOperands

/-- Splits at the first occurrence of a character: what is before it and what is after it. -/
def splitAtFirst (c : Char) : Text → Option (Text × Text)
  | [] => none
  | d :: rest => if d = c then some ([], rest) else (splitAtFirst c rest).map fun p => (d :: p.1, p.2)

/-- The base register's name, `$` put before it if omitted (30_encoding.md R143). -/
def withDollar : Text → Text
  | '$' :: rest => '$' :: rest
  | t => '$' :: t

/-- The `offset(rs)` operand: offset and base register (30_encoding.md R143, 92_eei_decisions.md D24). DESIGN CHOICE, safe: the
parentheses are looked for before the offset and the base are read, so a token that fails on both is `InvalidAddressSyntax`
(log entry 8). -/
def parseOffsetBase (t : Text) : Except AsmError (Int × Int) :=
  match splitAtFirst '(' t with
  | none => .error .invalidAddressSyntax
  | some (offset, afterOpen) =>
    match splitAtFirst ')' afterOpen with
    | some (base, []) => do
      let v ← parseNumber offset
      let r ← parseRegister (withDollar base)
      return (v, r)
    | _ => .error .invalidAddressSyntax

/-- Parses one token for its role (30_encoding.md R141 to R143). -/
def parseOperand (o : Operands) (role : OperandRole) (t : Text) : Except AsmError Operands :=
  match role with
  | .rd => (parseRegister t).map fun r => { o with rd := r }
  | .rs => (parseRegister t).map fun r => { o with rs := r }
  | .rt => (parseRegister t).map fun r => { o with rt := r }
  | .shamt => (parseNumber t).map fun v => { o with shamt := v }
  | .immediate => (parseNumber t).map fun v => { o with immediate := v }
  | .address => (parseNumber t).map fun v => { o with address := v }
  | .offsetBase => (parseOffsetBase t).map fun p => { o with immediate := p.1, rs := p.2 }

/-- Role by role, the first failure being the error; the count is checked after the roles (30_encoding.md R144). -/
def parseOperands : List OperandRole → List Text → Operands → Except AsmError Operands
  | [], [], o => .ok o
  | [], _ :: _, _ => .error .invalidOperands
  | _ :: _, [], _ => .error .invalidOperands
  | role :: roles, t :: ts, o =>
    match parseOperand o role t with
    | .ok o' => parseOperands roles ts o'
    | .error e => .error e

/-- The codec contract's `assemble`: the word of the operand tokens, and its canonical text (30_encoding.md §3, R144, R151). -/
def assemble (c : Catalog) (m : Mnemonic) (operands : List Text) : Except AsmError (Word × Text) :=
  match parseOperands m.operandSyntax operands noOperands with
  | .ok o => (encodeOperands c m o).map fun w => (w, canonicalText (instrOf m w))
  | .error e => .error e

/-- What surfaces to the caller when a line does not assemble: the error and the offending source text
(30_encoding.md R145, 60_exceptions.md R315). -/
structure AsmFailure where
  error  : AsmError
  source : Text
  deriving DecidableEq, Repr

/-- The word and canonical text of a line's tokens: the first is the mnemonic (30_encoding.md R140, R113, R146). DESIGN CHOICE, safe: a line with
no token has no mnemonic and is `UnknownInstruction`. -/
def assembleTokens (c : Catalog) : List Text → Except AsmError (Word × Text)
  | [] => .error .unknownInstruction
  | name :: operands =>
    match lookupMnemonic name with
    | some m => assemble c m operands
    | none => .error .unknownInstruction

/-- Assembling one line: its word and that word's canonical text, or the failure with the line's text
(30_encoding.md §3, R140, R145, R151). -/
def assembleLine (c : Catalog) (line : Text) : Except AsmFailure (Word × Text) :=
  match assembleTokens c (tokens line) with
  | .ok r => .ok r
  | .error e => .error ⟨e, line⟩

end Sys2Proof.Machine
end

