-- ==== Sys2Proof/Machine/Image.lean ====
section
/-! DEFINITION. Program images: the Words of a serialized image under the open IMAGE_BYTE_ORDER, and the memory a loader
leaves (20_memory.md R73, R76, 70_reset_and_hazards.md R350). The loader itself is outside the core (00_scope.md R4). -/

namespace Sys2Proof.Machine

/-- Four bytes, the one at the lowest file offset first, as a Word. -/
def wordOfBytes : ByteOrder → Byte → Byte → Byte → Byte → Word
  | .bigEndian, b0, b1, b2, b3 => b0 ++ b1 ++ b2 ++ b3
  | .littleEndian, b0, b1, b2, b3 => b3 ++ b2 ++ b1 ++ b0

/-- The whole Words of a serialized image; none if a part of a Word is left over (70_reset_and_hazards.md R350 "whole 32-bit
Words"). -/
def imageWords (order : ByteOrder) : List Byte → Option (List Word)
  | [] => some []
  | b0 :: b1 :: b2 :: b3 :: rest => (imageWords order rest).map (wordOfBytes order b0 b1 b2 b3 :: ·)
  | _ :: _ => none

/-- The program's words at successive addresses from a base (70_reset_and_hazards.md R350). DESIGN CHOICE, safe: a program that
runs past the top of the address space goes on at address 0 (log entry 15); the spec says nothing of the loader there. -/
def placeWords : Word → List Word → List (Word × Word)
  | _, [] => []
  | a, w :: rest => (a, w) :: placeWords (nextPc a) rest

/-- The initial memory of a launch: the image's words and nothing else (20_memory.md R73). DESIGN CHOICE, safe: of two Words listed
for one address the later one counts (log entry 15). -/
def imageMemory (image : List (Word × Word)) : Memory :=
  image.foldl (fun m aw => m.store aw.1 aw.2) ⟨[]⟩

end Sys2Proof.Machine
end

