-- ==== Sys2Proof/Machine/Control.lean ====
section
/-! DEFINITION. The host's moves: launch, and the control inputs Reset, Step, Run, Halt, each between steps (10_state.md R46,
R50 to R55, 60_exceptions.md R321, 70_reset_and_hazards.md R340 to R353). -/

namespace Sys2Proof.Machine

/-- What the loader and the run driver fix at launch (00_scope.md R9, 70_reset_and_hazards.md R350, R353): ZERO_WRITES, J_MODE,
RESET_PC and CATALOG (`params`), END (`endCond`, any condition on the state) and MEM (`image`, the initial map). Every host
move of one session takes the same `Launch`, so END and the others stay as launched (log entry 17). -/
structure Launch where
  params  : Params
  endCond : State → Bool
  image   : List (Word × Word)

/-- The default END, `pc == end_pc` (00_scope.md R9, 10_state.md R53). -/
def atEndPc (endPc : Word) (s : State) : Bool := s.pc == endPc

/-- A launch with every default of 00_scope.md R9, and the end_pc and the image that a launch gives. -/
def Launch.standard (endPc : Word) (image : List (Word × Word)) : Launch := ⟨Params.standard, atEndPc endPc, image⟩

/-- The launch itself: the parameters are fixed, MEM is set, and then `Reset`. A RESET_PC that is no multiple of 4 and a CATALOG
that breaks 30_encoding.md R111 are refused (70_reset_and_hazards.md R341, R353). DESIGN CHOICE, safe: where both hold the
refusal names RESET_PC (log entry 12). -/
def launch (l : Launch) : Result :=
  if l.params.resetPc.toNat % Config.instructionWidth ≠ 0 then .refused .misalignedResetPc
  else if l.params.catalog.valid = false then .refused .invalidCatalog
  else .next (State.afterReset l.params (imageMemory l.image) [])

/-- `Reset`: every register, the pc and the status; memory is not touched (70_reset_and_hazards.md R340, R342), and the
parameters stay as launched (R353). DESIGN CHOICE, safe: the trace of events already emitted stays too (log entry 6). -/
def applyReset (s : State) : State := State.afterReset s.params s.mem s.notices

/-- `Step`: one step if Ready; no effect while Faulted (10_state.md R46, R55). `step` answers nothing but a next state. -/
def applyStep (s : State) : State :=
  match step s with
  | .next t => t
  | .fault _ => s
  | .refused _ => s

/-- `Halt` changes no state (10_state.md R46). -/
def applyHalt (s : State) : State := s

/-- The requests pending between two steps of a `Run` (10_state.md R52, R53). -/
structure Pending where
  reset : Bool
  halt  : Bool
  deriving DecidableEq, Repr

/-- Why a `Run` stopped (10_state.md R53). DESIGN CHOICE, safe: the report is the model's own; the spec gives a Run's stop a state and
no reported reason (log entry 9). -/
inductive RunStop where
  /-- END holds. -/
  | ended
  /-- A Halt request was pending. -/
  | halted
  /-- The status is Faulted. -/
  | faulted
  /-- A Reset request was pending and was applied. -/
  | wasReset
  /-- Not stopped yet: the listed step boundaries are used up. -/
  | running
  deriving DecidableEq, Repr

/-- `run()`, over the requests found pending at each step boundary (10_state.md R53): a Reset wins over a Halt
(60_exceptions.md R321); END or Halt stops with no state change; then a status that is not Ready stops; else one step.
DESIGN CHOICE, safe (log entry 9), where the spec ranks nothing: a Reset pending where END already holds is applied, and the
stop is reported as `wasReset`; so is a Reset pending where the status is already Faulted; END beside a Halt is reported as
`ended`; and a Run that a Reset interrupts ends there, at the reset state. -/
def runWith (endCond : State → Bool) : List Pending → State → RunStop × State
  | [], s => (.running, s)
  | p :: rest, s =>
    if p.reset then (.wasReset, applyReset s)
    else if endCond s then (.ended, s)
    else if p.halt then (.halted, applyHalt s)
    else if s.status = .ready then runWith endCond rest (applyStep s)
    else (.faulted, s)

/-- A host move after the launch (10_state.md R46, 70_reset_and_hazards.md R353). -/
inductive Control where
  | reset
  | step
  | run (boundaries : List Pending)
  | halt
  deriving DecidableEq, Repr

/-- The effect of one host move, in a session with given launch arguments; a Run takes its END from them (R53 "the launch's halt
condition"). -/
def applyControl (l : Launch) : Control → State → State
  | .reset, s => applyReset s
  | .step, s => applyStep s
  | .run boundaries, s => (runWith l.endCond boundaries s).2
  | .halt, s => applyHalt s

/-- The effect of a sequence of host moves. -/
def applyControls (l : Launch) (moves : List Control) (s : State) : State := moves.foldl (fun t m => applyControl l m t) s

end Sys2Proof.Machine
end

