-- ==== Sys2Proof/Safety.lean ====
section
/-! DEFINITION. The invariant of the machine and what a recorded fatal error says about the state it stands in
(10_state.md R34, R39, R55, 20_memory.md R77, 60_exceptions.md R301, R310 to R314). -/

namespace Sys2Proof.Machine

/-- The pc is a multiple of the instruction width (10_state.md R39). -/
def State.pcAligned (s : State) : Prop := s.pc.toNat % Config.instructionWidth = 0

/-- Under Discarded, register 0 holds 0 (10_state.md R34). -/
def State.zeroHeld (s : State) : Prop := s.params.zeroWrites = .discarded → s.regs[0] = 0

/-- The invariant that the launch establishes and every step and host move keeps: canonical memory, aligned pc, valid launch
parameters, and register 0 at 0 under Discarded. -/
structure State.Inv (s : State) : Prop where
  memory    : s.mem.wf = true
  pcAligned : s.pcAligned
  params    : s.params.valid = true
  zero      : s.zeroHeld

/-- The instruction at the pc is an ADD, SUB or ADDI whose exact signed result overflows (60_exceptions.md R310). -/
def overflowsAt (s : State) : Instr → Prop
  | .add f => detectSignedOverflow (toSigned (s.readReg f.rs) + toSigned (s.readReg f.rt)) = true
  | .sub f => detectSignedOverflow (toSigned (s.readReg f.rs) - toSigned (s.readReg f.rt)) = true
  | .addi f => detectSignedOverflow (toSigned (s.readReg f.rs) + toSigned (signedImm f)) = true
  | .sll _ | .srl _ | .mfhi _ | .mflo _ | .mult _ | .multu _ | .div _ => False
  | .addu _ | .subu _ | .and _ | .or _ | .j _ => False
  | .addiu _ | .andi _ | .ori _ | .lui _ | .lw _ | .sw _ => False

/-- What `err_info` says, by kind, about the state the error left (60_exceptions.md R310 to R314). -/
def faultInfoOk (s : State) : ErrorKind → Word → Prop
  | .fetchMiss, info => info = s.pc ∧ s.mem.fetch s.pc = none
  | .unknownInstruction, info => s.mem.fetch s.pc = some info ∧ dispatch s.params.catalog info = none
  | .integerOverflow, info => s.mem.fetch s.pc = some info ∧
      ∃ i, decode s.params.catalog info = .ok i ∧ overflowsAt s i
  | .memoryAccessError, info => s.mem.fetch info = none ∧
      ∃ w f, s.mem.fetch s.pc = some w ∧ decode s.params.catalog w = .ok (.lw f) ∧ info = effectiveAddress s f
  | .notImplemented, info => s.mem.fetch s.pc = some info ∧ s.params.jMode = .notImplementedFault ∧
      ∃ f, decode s.params.catalog info = .ok (.j f)

/-- A recorded fatal error names the pc it stands at, and its context is that of the state, which is as of the last
completed step (10_state.md R55, 60_exceptions.md R301, R302). -/
def State.faultRecordOk (s : State) : Prop :=
  match s.status with
  | .ready => True
  | .faulted kind errPc info => errPc = s.pc ∧ faultInfoOk s kind info

/-- A state a host can bring about: a launch that is not refused, then any moves (70_reset_and_hazards.md R353). -/
def Reachable (s : State) : Prop :=
  ∃ (l : Launch) (t : State) (moves : List Control), launch l = .next t ∧ s = applyControls l moves t

end Sys2Proof.Machine
end

