-- ==== Sys2Proof/Certificates/Slice0/Obligations.lean ====
section
/-! DEFINITION. The statements for the provers, and the predicates they share: what a step changes and that it changes nothing
else. Each docstring names the rules of spec/ it formalises. -/

namespace Sys2Proof.Statements

open Sys2Proof.Machine

/-- From `s` to `t` register `dst` alone is written, with `v`, and the pc advances by 4 (10_state.md R33, R34, R38). A write of
register 0 under Discarded is discarded. hi, lo, status, events, parameters and every address of memory are as before. -/
def WritesRegister (s t : State) (dst : RegIndex) (v : Word) : Prop :=
  t.pc = s.pc + 4 ∧
  (∀ r, t.readReg r =
    if r = dst ∧ ¬(r = 0 ∧ s.params.zeroWrites = .discarded) then v else s.readReg r) ∧
  t.hi = s.hi ∧ t.lo = s.lo ∧ t.status = s.status ∧ t.notices = s.notices ∧ t.params = s.params ∧
  (∀ a, t.mem.fetch a = s.mem.fetch a)

/-- From `s` to `t` hi and lo alone are written, and the pc advances by 4 (10_state.md R38, R40). -/
def WritesHiLo (s t : State) (hi lo : Word) : Prop :=
  t.pc = s.pc + 4 ∧ t.hi = hi ∧ t.lo = lo ∧
  (∀ r, t.readReg r = s.readReg r) ∧
  t.status = s.status ∧ t.notices = s.notices ∧ t.params = s.params ∧
  (∀ a, t.mem.fetch a = s.mem.fetch a)

/-- From `s` to `t` the Word at one exact address alone is stored, and the pc advances by 4 (20_memory.md R72, R73). Memory is
keyed by whole Words (R75), so an access's bytes are its one key. -/
def StoresWord (s t : State) (address v : Word) : Prop :=
  t.pc = s.pc + 4 ∧ t.mem.fetch address = some v ∧
  (∀ a, a ≠ address → t.mem.fetch a = s.mem.fetch a) ∧
  (∀ r, t.readReg r = s.readReg r) ∧
  t.hi = s.hi ∧ t.lo = s.lo ∧ t.status = s.status ∧ t.notices = s.notices ∧ t.params = s.params

/-- From `s` to `t` one JNotice of the pc is emitted, which the model keeps as the last of a list (log entry 5), the pc advances by 4,
and nothing else changes (43_jump.md R250). -/
def EmitsNotice (s t : State) : Prop :=
  t.pc = s.pc + 4 ∧ t.notices = s.notices ++ [s.pc] ∧
  (∀ r, t.readReg r = s.readReg r) ∧
  t.hi = s.hi ∧ t.lo = s.lo ∧ t.status = s.status ∧ t.params = s.params ∧
  (∀ a, t.mem.fetch a = s.mem.fetch a)

/-- From `s` to `t` a fatal error is recorded, with the pc of the instruction, and nothing else changes
(60_exceptions.md R301; the record's form is the spec's own choice, D21). -/
def FailsWith (s t : State) (kind : ErrorKind) (info : Word) : Prop :=
  t.status = .faulted kind s.pc info ∧ t.pc = s.pc ∧
  (∀ r, t.readReg r = s.readReg r) ∧
  t.hi = s.hi ∧ t.lo = s.lo ∧ t.notices = s.notices ∧ t.params = s.params ∧
  (∀ a, t.mem.fetch a = s.mem.fetch a)

/-- R-format, opcode 0, with an operand syntax (30_encoding.md R100, R112). Under every valid CATALOG the encoder lays the fields out
so, with the funct that the CATALOG binds to the mnemonic, and every word with opcode 0 and that funct decodes to the instruction, its
unused fields ignored (R134). The default numbers, the spec's own choice (D1) but for SLL's, stand in SpecWordsDecode. -/
def EncodedR (m : Mnemonic) (i : RFields → Instr) (operands : List OperandRole) : Prop :=
  m.operandSyntax = operands ∧ m.format = .r ∧
  ∀ c : Catalog, c.valid = true →
    (∀ f, encode c (i f) = (0#6 ++ f.rs ++ f.rt ++ f.rd ++ f.shamt ++ c.code m : Word)) ∧
    (∀ w : Word, w.extractLsb' 26 6 = 0 → w.extractLsb' 0 6 = c.code m →
      decode c w = .ok (i ⟨w.extractLsb' 21 5, w.extractLsb' 16 5, w.extractLsb' 11 5, w.extractLsb' 6 5⟩))

/-- I-format, with an operand syntax and the opcode that the CATALOG binds to the mnemonic, under every valid CATALOG
(30_encoding.md R101, R112, R114). -/
def EncodedI (m : Mnemonic) (i : IFields → Instr) (operands : List OperandRole) : Prop :=
  m.operandSyntax = operands ∧ m.format = .i ∧
  ∀ c : Catalog, c.valid = true →
    (∀ f, encode c (i f) = (c.code m ++ f.rs ++ f.rt ++ f.imm : Word)) ∧
    (∀ w : Word, w.extractLsb' 26 6 = c.code m →
      decode c w = .ok (i ⟨w.extractLsb' 21 5, w.extractLsb' 16 5, w.extractLsb' 0 16⟩))

/-- The kind of execute-stage error an instruction can raise (60_exceptions.md R320). -/
def errorKindOf : Instr → Option ErrorKind
  | .add _ | .sub _ | .addi _ => some .integerOverflow
  | .lw _ => some .memoryAccessError
  | .j _ => some .notImplemented
  | .sll _ | .srl _ | .mfhi _ | .mflo _ | .mult _ | .multu _ | .div _ => none
  | .addu _ | .subu _ | .and _ | .or _ => none
  | .addiu _ | .andi _ | .ori _ | .lui _ | .sw _ => none

/-- A number in plain decimal, with `-` if negative (30_encoding.md R150). -/
def decimal (v : Int) : Text := (toString v).toList

/-- `$` and a register's number (30_encoding.md R150). -/
def registerName (r : RegIndex) : Text := '$' :: decimal r.toNat

/-- The mnemonic's text and then each operand's, after one space each (30_encoding.md R150). -/
def listed (m : Mnemonic) (operands : List Text) : Text := m.symbol ++ operands.flatMap fun t => ' ' :: t

/-- The exact integer is a signed 32-bit value (42_alu_register.md R230). -/
def FitsSigned (r : Int) : Prop := -2 ^ 31 ≤ r ∧ r ≤ 2 ^ 31 - 1

end Sys2Proof.Statements

open Sys2Proof Sys2Proof.Machine Sys2Proof.Statements

/-! Encoding. -/

/-- The default CATALOG binds the numbers of 30_encoding.md R112 (the spec's own choice, 92_eei_decisions.md D1), in the catalog's
order, and is valid (R111); and a few of the spec's worked words decode under it to what they stand for (R126, 95_test_vectors.md B3). -/
def Obligations.SpecWordsDecode : Prop :=
  Mnemonic.all.map Catalog.standard.code = [0x00, 0x02, 0x10, 0x12, 0x18, 0x19, 0x1A, 0x20, 0x21, 0x22, 0x23, 0x24, 0x25, 0x02,
    0x08, 0x09, 0x0C, 0x0D, 0x0F, 0x23, 0x2B] ∧
  Catalog.standard.valid = true ∧
  decode Catalog.standard 0x00094100 = .ok (.sll ⟨0, 9, 8, 4⟩) ∧
  decode Catalog.standard 0x00005010 = .ok (.mfhi ⟨0, 0, 10, 0⟩) ∧
  decode Catalog.standard 0x012A40E0 = .ok (.add ⟨9, 10, 8, 3⟩) ∧
  decode Catalog.standard 0x08000100 = .ok (.j ⟨256⟩) ∧
  decode Catalog.standard 0x3C281234 = .ok (.lui ⟨1, 8, 0x1234⟩) ∧
  decode Catalog.standard 0x8E08FFFC = .ok (.lw ⟨16, 8, 0xFFFC⟩) ∧
  decode Catalog.standard 0xAFA9FFFC = .ok (.sw ⟨29, 9, 0xFFFC⟩) ∧
  decode Catalog.standard 0x0000001B = .error (.unassignedFunct 0x1B) ∧
  decode Catalog.standard 0xFC000000 = .error (.unassignedOpcode 0x3F)

/-- Under every valid CATALOG, decoding the word of any instruction gives the instruction back, every field of it, used or
not (30_encoding.md R111, R135, R138). -/
def Obligations.DecodeOfEncode : Prop :=
  ∀ (c : Catalog) (i : Instr), c.valid = true → decode c (encode c i) = .ok i

/-- Under every valid CATALOG, the word of a decoded instruction is the word it was decoded from: decoding drops no bit
(30_encoding.md R100 to R102, R135). -/
def Obligations.EncodeOfDecode : Prop :=
  ∀ (c : Catalog) (w : Word) (i : Instr), c.valid = true → decode c w = .ok i → encode c i = w

/-- The decode space of the default CATALOG: a word decodes exactly if its opcode is one of the eight non-zero ones listed, or
0 with one of the thirteen functs listed; 55 opcodes and 51 functs are unassigned; and a step on any other word is the fatal
`UnknownInstruction` with that word (30_encoding.md R136). The default
numbers and the fatal treatment are the spec's own choices (D1, D9). -/
def Obligations.IllegalWordsExactly : Prop :=
  (∀ w : Word, (∃ i, decode Catalog.standard w = .ok i) ↔
    w.extractLsb' 26 6 ∈ ([0x02, 0x08, 0x09, 0x0C, 0x0D, 0x0F, 0x23, 0x2B] : List (BitVec 6)) ∨
    (w.extractLsb' 26 6 = 0 ∧ w.extractLsb' 0 6 ∈
      ([0x00, 0x02, 0x10, 0x12, 0x18, 0x19, 0x1A, 0x20, 0x21, 0x22, 0x23, 0x24, 0x25] : List (BitVec 6)))) ∧
  64 - ([0x00, 0x02, 0x08, 0x09, 0x0C, 0x0D, 0x0F, 0x23, 0x2B] : List (BitVec 6)).dedup.length = 55 ∧
  64 - ([0x00, 0x02, 0x10, 0x12, 0x18, 0x19, 0x1A, 0x20, 0x21, 0x22, 0x23, 0x24, 0x25] : List (BitVec 6)).dedup.length
    = 51 ∧
  (∀ (s : State) (w : Word), s.status = .ready → s.params.catalog = Catalog.standard → s.mem.fetch s.pc = some w →
    (∀ i, decode Catalog.standard w ≠ .ok i) →
    ∃ t, step s = .next t ∧ FailsWith s t .unknownInstruction w)

/-- Under every valid CATALOG, dispatch selects a mnemonic exactly if its code is the word's: the R-format funct under opcode 0,
the opcode otherwise, where bits 5..0 take no part (30_encoding.md R111, R114, R135). A word that no
descriptor fits being fatal is no part of this (D9). -/
def Obligations.DispatchSelectsTheOneDescriptor : Prop :=
  ∀ (c : Catalog) (w : Word) (m : Mnemonic), c.valid = true →
    (dispatch c w = some m ↔
      (w.extractLsb' 26 6 = 0 ∧ m.format = .r ∧ c.code m = w.extractLsb' 0 6) ∨
      (w.extractLsb' 26 6 ≠ 0 ∧ m.format ≠ .r ∧ c.code m = w.extractLsb' 26 6))

/-- Round trip of the three encoder engines and decoder engines (30_encoding.md R138): R-format fields come back the same, the 0s
of R121 among them; the I-format immediate comes back as sext_16(v mod 2^16), which is v up to 32767 and v - 65536 above, with v
recovered from its low 16 bits; the J address comes back as (A >> 2) mod 2^26. The spec derives this rule from its
encoders and decoders; the zeros and the ranges are its own choices (D10, D17). -/
def Obligations.EncodersRoundTrip : Prop :=
  (∀ (c : Catalog) (m : Mnemonic) (rs rt rd shamt : RegIndex), c.valid = true → m.format = .r →
    ∃ w, encodeRValues c m rs.toNat rt.toNat rd.toNat shamt.toNat = .ok w ∧ dispatch c w = some m ∧
      disassembleR w = ⟨0, rs, rt, rd, shamt, c.funct m⟩) ∧
  (∀ (m : Mnemonic) (toks : List Text) (o : Operands), m.format = .r →
    parseOperands m.operandSyntax toks noOperands = .ok o →
    (.rs ∉ m.operandSyntax → o.rs = 0) ∧ (.rt ∉ m.operandSyntax → o.rt = 0) ∧
    (.rd ∉ m.operandSyntax → o.rd = 0) ∧ (.shamt ∉ m.operandSyntax → o.shamt = 0)) ∧
  (∀ (c : Catalog) (m : Mnemonic) (rs rt : RegIndex) (v : Int), c.valid = true → m.format = .i →
    -32768 ≤ v → v ≤ 65535 →
    ∃ w, encodeIValues c m rs.toNat rt.toNat v = .ok w ∧ dispatch c w = some m ∧
      (disassembleI w).opcode = c.opcode m ∧ (disassembleI w).rs = rs ∧ (disassembleI w).rt = rt ∧
      toSigned (disassembleI w).imm = asSigned v 16 ∧
      toSigned (disassembleI w).imm = (if v ≤ 32767 then v else v - 65536) ∧
      (32767 < v → (((disassembleI w).imm.extractLsb' 0 16).toNat : Int) = v)) ∧
  (∀ (c : Catalog) (m : Mnemonic) (address : Int), c.valid = true → m.format = .j →
    0 ≤ address → address ≤ 2 ^ 32 - 1 →
    ∃ w, encodeJValues c m address = .ok w ∧ dispatch c w = some m ∧
      (disassembleJ w).opcode = c.opcode m ∧ ((disassembleJ w).target.toNat : Int) = address / 4 % 2 ^ 26)

/-- The R-format encoder is `setBits` on each field range in turn, with the same `FieldOverflow` on a value outside 0..31, and
its word is the R layout (30_encoding.md R120). -/
def Obligations.EncoderSetsFieldByField : Prop :=
  ∀ (c : Catalog) (m : Mnemonic) (rs rt rd shamt : Int),
    (encodeRValues c m rs rt rd shamt = do
      let w ← setBits 0 (c.opcode m).toNat 31 26
      let w ← setBits w rs 25 21
      let w ← setBits w rt 20 16
      let w ← setBits w rd 15 11
      let w ← setBits w shamt 10 6
      setBits w (c.funct m).toNat 5 0) ∧
    ((0 ≤ rs ∧ rs ≤ 31) ∧ (0 ≤ rt ∧ rt ≤ 31) ∧ (0 ≤ rd ∧ rd ≤ 31) ∧ (0 ≤ shamt ∧ shamt ≤ 31) →
      encodeRValues c m rs rt rd shamt = .ok (c.opcode m ++ BitVec.ofInt 5 rs ++ BitVec.ofInt 5 rt ++
        BitVec.ofInt 5 rd ++ BitVec.ofInt 5 shamt ++ c.funct m : Word)) ∧
    (¬((0 ≤ rs ∧ rs ≤ 31) ∧ (0 ≤ rt ∧ rt ≤ 31) ∧ (0 ≤ rd ∧ rd ≤ 31) ∧ (0 ≤ shamt ∧ shamt ≤ 31)) →
      encodeRValues c m rs rt rd shamt = .error .fieldOverflow)

/-- The I-format encoder: an immediate in -32768..65535 is packed as v mod 2^16, the low 16 bits of asSigned(v, 16) too; any
other value, and a register outside 0..31, is `FieldOverflow` (30_encoding.md R122). The accepted range is the spec's own choice (D17). -/
def Obligations.ImmediateEncoderPacksOrRefuses : Prop :=
  ∀ (c : Catalog) (m : Mnemonic) (rs rt v : Int),
    ((0 ≤ rs ∧ rs ≤ 31) ∧ (0 ≤ rt ∧ rt ≤ 31) ∧ (-32768 ≤ v ∧ v ≤ 65535) →
      ∃ w, encodeIValues c m rs rt v = .ok w ∧
        w = (c.opcode m ++ BitVec.ofInt 5 rs ++ BitVec.ofInt 5 rt ++ BitVec.ofInt 16 v : Word) ∧
        ((w.extractLsb' 0 16).toNat : Int) = asUnsigned v 16 ∧
        BitVec.ofInt 16 (asSigned v 16) = w.extractLsb' 0 16) ∧
    (¬((0 ≤ rs ∧ rs ≤ 31) ∧ (0 ≤ rt ∧ rt ≤ 31) ∧ (-32768 ≤ v ∧ v ≤ 65535)) →
      encodeIValues c m rs rt v = .error .fieldOverflow)

/-- The J-format encoder: target26 = (A >> 2) AND 0x03FFFFFF for A in 0..2^32-1, so bits 1..0 and 31..28 are dropped without an
error; any other A is `FieldOverflow` (30_encoding.md R124). The range is the spec's own choice (D17). -/
def Obligations.JumpEncoderMasksTheAddress : Prop :=
  (∀ (c : Catalog) (m : Mnemonic) (a : Word),
    encodeJValues c m a.toNat = .ok (c.opcode m ++ ((a >>> 2) &&& 0x03FFFFFF).extractLsb' 0 26 : Word)) ∧
  (∀ (c : Catalog) (m : Mnemonic) (a b : Word), a.extractLsb' 2 26 = b.extractLsb' 2 26 →
    encodeJValues c m a.toNat = encodeJValues c m b.toNat) ∧
  (∀ (c : Catalog) (m : Mnemonic) (a : Int), a < 0 ∨ 2 ^ 32 - 1 < a → encodeJValues c m a = .error .fieldOverflow)

/-- A line that assembles gives a whole word: it decodes to an instruction of the line's mnemonic whose unused fields are 0, and
the text returned with it is that instruction's canonical text (30_encoding.md R121, R123, R145, R151). Some of the zeros,
and the signed text of an immediate, are the spec's own choices (D10, D16). -/
def Obligations.AssembledWordsAreWellFormed : Prop :=
  ∀ (c : Catalog) (m : Mnemonic) (toks : List Text) (w : Word) (text : Text), c.valid = true →
    assemble c m toks = .ok (w, text) →
    ∃ i, decode c w = .ok i ∧ i.mnemonic = m ∧ i.wellFormed = true ∧ text = canonicalText i

/-- The assembler's check order (30_encoding.md R144): a token that fails its role is the error, whatever follows it; if every role
that has a token parses, a missing or left-over token is `InvalidOperands`; only then come range checks and encoding. A numeric
token in a register role and a register name in a numeric role are `InvalidOperands`, and `LW $t0 8 $s0` is
`InvalidAddressSyntax`. The order and the role errors are the spec's own choices (D23, D24, D30). -/
def Obligations.AssemblerCheckOrder : Prop :=
  (∀ (c : Catalog) (m : Mnemonic) (before after : List OperandRole) (role : OperandRole) (given rest : List Text)
      (t : Text) (o : Operands) (e : AsmError),
    m.operandSyntax = before ++ role :: after → parseOperands before given noOperands = .ok o →
    parseOperand o role t = .error e → assemble c m (given ++ t :: rest) = .error e) ∧
  (∀ (c : Catalog) (m : Mnemonic) (roles missing : List OperandRole) (given extra : List Text) (o : Operands),
    m.operandSyntax = roles ++ missing → parseOperands roles given noOperands = .ok o →
    (missing = [] ∧ extra ≠ []) ∨ (missing ≠ [] ∧ extra = []) →
    assemble c m (given ++ extra) = .error .invalidOperands) ∧
  (∀ (c : Catalog) (m : Mnemonic) (toks : List Text) (o : Operands),
    parseOperands m.operandSyntax toks noOperands = .ok o →
    assemble c m toks = (encodeOperands c m o).map fun w => (w, canonicalText (instrOf m w))) ∧
  (∀ (t : Text) (v : Int), parseInt t = some v → parseRegister t = .error .invalidOperands) ∧
  (∀ (t : Text) (r : Int), parseRegister t = .ok r → parseNumber t = .error .invalidOperands) ∧
  (∀ c : Catalog, assemble c .lw ["$t0".toList, "8".toList, "$s0".toList] = .error .invalidAddressSyntax)

/-- Lookup by mnemonic folds case, finds each of the 21 by its own symbol, and a line whose mnemonic has no descriptor is
`UnknownInstruction` (30_encoding.md R113). -/
def Obligations.MnemonicLookupFoldsCase : Prop :=
  (∀ m : Mnemonic, lookupMnemonic m.symbol = some m) ∧
  (∀ a b : Text, a.map Char.toLower = b.map Char.toLower → lookupMnemonic a = lookupMnemonic b) ∧
  lookupMnemonic "SLL".toList = some .sll ∧ lookupMnemonic "sll".toList = some .sll ∧
  lookupMnemonic "Sll".toList = some .sll ∧
  (∀ (c : Catalog) (name : Text) (operands : List Text), (∀ m : Mnemonic, m.symbol ≠ name.map Char.toLower) →
    assembleTokens c (name :: operands) = .error .unknownInstruction)

/-! Bit-field primitives. -/

/-- Setting a field to the value read from it changes nothing (00_scope.md R18). -/
def Obligations.FieldRoundTrip : Prop :=
  ∀ (w : Word) (hi lo : Int), 0 ≤ lo → lo ≤ hi → hi ≤ 31 →
    ∃ b, getBits w hi lo = .ok b ∧ setBits w b hi lo = .ok w

/-- `setBits` fails with `InvalidRange` on a bad range, with `FieldOverflow` on a value that does not fit, and otherwise puts the
value into the field and leaves every other bit (00_scope.md R11). That the range is checked before the
value, where both fail, is the model's choice (log entry 18). -/
def Obligations.SetBitsChangesOneField : Prop :=
  (∀ (w : Word) (bits hi lo : Int), ¬(0 ≤ lo ∧ lo ≤ hi ∧ hi ≤ 31) → setBits w bits hi lo = .error .invalidRange) ∧
  (∀ (w : Word) (bits : Int) (hi lo : Nat), lo ≤ hi → hi ≤ 31 → ¬(0 ≤ bits ∧ bits ≤ 2 ^ (hi - lo + 1) - 1) →
    setBits w bits hi lo = .error .fieldOverflow) ∧
  (∀ (w : Word) (bits : Int) (hi lo : Nat), lo ≤ hi → hi ≤ 31 → 0 ≤ bits → bits ≤ 2 ^ (hi - lo + 1) - 1 →
    ∃ w', setBits w bits hi lo = .ok w' ∧ ((w'.extractLsb' lo (hi - lo + 1)).toNat : Int) = bits ∧
      ∀ k < 32, k < lo ∨ hi < k → w'.getLsbD k = w.getLsbD k)

/-- Narrowing to n bits and reading back as two's complement gives the value back, for every n in 1..32 and every value an n-bit
two's-complement number can hold; 255 in 8 bits reads back as -1 (00_scope.md R15). -/
def Obligations.NarrowThenSignExtend : Prop :=
  (∀ (n : Nat) (v : Int), 1 ≤ n → n ≤ 32 → -2 ^ (n - 1) ≤ v → v ≤ 2 ^ (n - 1) - 1 →
    asSigned (asUnsigned v n) n = v) ∧
  asSigned (asUnsigned 255 8) 8 = -1

/-- The overflow predicates hold exactly outside the signed and the unsigned 32-bit range, which is exactly where narrowing to
32 bits loses the value (00_scope.md R16). -/
def Obligations.OverflowIsLossOfValue : Prop :=
  ∀ r : Int,
    (detectSignedOverflow r = true ↔ ¬(-2 ^ 31 ≤ r ∧ r ≤ 2 ^ 31 - 1)) ∧
    (detectSignedOverflow r = true ↔ toSigned (w32 r) ≠ r) ∧
    (detectUnsignedOverflow r = true ↔ ¬(0 ≤ r ∧ r ≤ 2 ^ 32 - 1)) ∧
    (detectUnsignedOverflow r = true ↔ ((w32 r).toNat : Int) ≠ r)

/-- The signed and unsigned readings: `toSigned` by bit 31, `toUnsigned` as u(w32(n)), and one undoes the other
(00_scope.md R13). -/
def Obligations.SignedReadingByTopBit : Prop :=
  (∀ v : Word, toSigned v = (if v.getLsbD 31 then (v.toNat : Int) - 2 ^ 32 else (v.toNat : Int))) ∧
  (∀ n : Int, -2 ^ 31 ≤ n → n ≤ 2 ^ 32 - 1 → (toUnsigned n : Int) = (if n < 0 then n + 2 ^ 32 else n)) ∧
  (∀ v : Word, toUnsigned (toSigned v) = v.toNat)

/-! Registers. -/

/-- Reading and writing general registers (10_state.md R33, R34): a write of registers 1..31 sets that register; one of register 0
sets it under Kept and does nothing under Discarded, where x[0] always reads 0; every register reads 0 after reset until written. Both settings,
and the reset value, are the spec's own choices (D3, D4). -/
def Obligations.RegisterWritesAndReads : Prop :=
  (∀ (s : State) (i : RegIndex) (v : Word), i ≠ 0 → (s.writeReg i v).readReg i = v) ∧
  (∀ (s : State) (v : Word), s.params.zeroWrites = .kept → (s.writeReg 0 v).readReg 0 = v) ∧
  (∀ (s : State) (v : Word), s.params.zeroWrites = .discarded → s.writeReg 0 v = s ∧ s.readReg 0 = 0x00000000) ∧
  (∀ (s : State) (i j : RegIndex) (v : Word), j ≠ i → (s.writeReg i v).readReg j = s.readReg j) ∧
  (∀ (s : State) (i : RegIndex), (applyReset s).readReg i = 0x00000000)

/-! The 21 instructions: encoding, result, frame, and where each raises its fatal error. -/

/-- SLL (40_shift.md R200), with the number and the word the source gives for it. -/
def Obligations.SllShiftsLeft : Prop :=
  EncodedR .sll .sll [.rd, .rt, .shamt] ∧
  encode Catalog.standard (.sll ⟨0, 9, 8, 4⟩) = 0x00094100 ∧
  (∀ (f : RFields) (s : State), ∃ t, exec (.sll f) s = .next t ∧
    WritesRegister s t f.rd (s.readReg f.rt <<< f.shamt.toNat)) ∧
  (∀ (c : Catalog) (rs rt rd shamt : Int), 31 < shamt → encodeRValues c .sll rs rt rd shamt = .error .fieldOverflow)

/-- SRL (40_shift.md R201). -/
def Obligations.SrlShiftsRightLogically : Prop :=
  EncodedR .srl .srl [.rd, .rt, .shamt] ∧
  (∀ (f : RFields) (s : State), ∃ t, exec (.srl f) s = .next t ∧
    WritesRegister s t f.rd (s.readReg f.rt >>> f.shamt.toNat))

/-- MFHI (41_muldiv_hilo.md R210). -/
def Obligations.MfhiCopiesHi : Prop :=
  EncodedR .mfhi .mfhi [.rd] ∧
  (∀ (f : RFields) (s : State), ∃ t, exec (.mfhi f) s = .next t ∧ WritesRegister s t f.rd s.hi)

/-- MFLO (41_muldiv_hilo.md R211). -/
def Obligations.MfloCopiesLo : Prop :=
  EncodedR .mflo .mflo [.rd] ∧
  (∀ (f : RFields) (s : State), ∃ t, exec (.mflo f) s = .next t ∧ WritesRegister s t f.rd s.lo)

/-- MULT (41_muldiv_hilo.md R212): hi:lo, read as one signed 64-bit number, is the exact product; no operands overflow it. -/
def Obligations.MultGivesTheSignedProduct : Prop :=
  EncodedR .mult .mult [.rs, .rt] ∧
  (∀ (f : RFields) (s : State), ∃ t hi lo, exec (.mult f) s = .next t ∧ WritesHiLo s t hi lo ∧
    (hi ++ lo : BitVec 64).toInt = (s.readReg f.rs).toInt * (s.readReg f.rt).toInt)

/-- MULTU (41_muldiv_hilo.md R213): hi:lo, read as one unsigned 64-bit number, is the exact product. -/
def Obligations.MultuGivesTheUnsignedProduct : Prop :=
  EncodedR .multu .multu [.rs, .rt] ∧
  (∀ (f : RFields) (s : State), ∃ t hi lo, exec (.multu f) s = .next t ∧ WritesHiLo s t hi lo ∧
    hi.toNat * 2 ^ 32 + lo.toNat = (s.readReg f.rs).toNat * (s.readReg f.rt).toNat)

/-- DIV (41_muldiv_hilo.md R214): a zero divisor gives hi = lo = 0; every other pair but -2^31 by -1 (the next statement) gives in lo
and hi, read as signed, the truncating quotient and the remainder, which is smaller than the divisor and has the dividend's sign. For
every pair DIV completes: it never raises an error. -/
def Obligations.DivTruncates : Prop :=
  EncodedR .div .div [.rs, .rt] ∧
  (∀ (f : RFields) (s : State), ∃ t hi lo, exec (.div f) s = .next t ∧ WritesHiLo s t hi lo ∧
    (s.readReg f.rt = 0 → hi = 0x00000000 ∧ lo = 0x00000000) ∧
    (s.readReg f.rt ≠ 0 → ¬(s.readReg f.rs = 0x80000000 ∧ s.readReg f.rt = 0xFFFFFFFF) →
      (s.readReg f.rs).toInt = (s.readReg f.rt).toInt * lo.toInt + hi.toInt ∧
      |hi.toInt| < |(s.readReg f.rt).toInt| ∧
      (hi.toInt = 0 ∨ (0 < hi.toInt ∧ 0 < (s.readReg f.rs).toInt) ∨ (hi.toInt < 0 ∧ (s.readReg f.rs).toInt < 0))))

/-- DIV of -2^31 by -1 gives lo = 0x80000000 and hi = 0, with no error. This is the spec's own choice: "The spec takes lo = w32(2^31)"
(41_muldiv_hilo.md R214, 92_eei_decisions.md D7). -/
def Obligations.DivOfTheLeastByMinusOne : Prop :=
  ∀ (f : RFields) (s : State), s.readReg f.rs = 0x80000000 → s.readReg f.rt = 0xFFFFFFFF →
    ∃ t, exec (.div f) s = .next t ∧ WritesHiLo s t 0x00000000 0x80000000

/-- ADD (42_alu_register.md R230): the sum, or `IntegerOverflow` exactly outside the signed range, which happens only when the
operands have one sign and the sum the other. The error's record is R301 and R310, its form the spec's own choice
(D21); that the recorded word is the encoding of the instruction is the model's reading (log entry 11). -/
def Obligations.AddAddsOrOverflows : Prop :=
  EncodedR .add .add [.rd, .rs, .rt] ∧
  (∀ (f : RFields) (s : State), FitsSigned ((s.readReg f.rs).toInt + (s.readReg f.rt).toInt) →
    ∃ t, exec (.add f) s = .next t ∧ WritesRegister s t f.rd (s.readReg f.rs + s.readReg f.rt)) ∧
  (∀ (f : RFields) (s : State), ¬FitsSigned ((s.readReg f.rs).toInt + (s.readReg f.rt).toInt) →
    ((s.readReg f.rs).msb = (s.readReg f.rt).msb ∧ (s.readReg f.rs + s.readReg f.rt).msb ≠ (s.readReg f.rs).msb) ∧
    ∃ t, exec (.add f) s = .next t ∧ FailsWith s t .integerOverflow (encode s.params.catalog (.add f)))

/-- ADDU (42_alu_register.md R231). -/
def Obligations.AdduWraps : Prop :=
  EncodedR .addu .addu [.rd, .rs, .rt] ∧
  (∀ (f : RFields) (s : State), ∃ t, exec (.addu f) s = .next t ∧
    WritesRegister s t f.rd (s.readReg f.rs + s.readReg f.rt))

/-- SUB (42_alu_register.md R232): the difference, or `IntegerOverflow` exactly outside the signed range; never when both operands
are one register. The error's record is R301 and R310, its form the spec's own choice
(D21); that the recorded word is the encoding of the instruction is the model's reading (log entry 11). -/
def Obligations.SubSubtractsOrOverflows : Prop :=
  EncodedR .sub .sub [.rd, .rs, .rt] ∧
  (∀ (f : RFields) (s : State), FitsSigned ((s.readReg f.rs).toInt - (s.readReg f.rt).toInt) →
    ∃ t, exec (.sub f) s = .next t ∧ WritesRegister s t f.rd (s.readReg f.rs - s.readReg f.rt)) ∧
  (∀ (f : RFields) (s : State), ¬FitsSigned ((s.readReg f.rs).toInt - (s.readReg f.rt).toInt) →
    f.rs ≠ f.rt ∧
    ∃ t, exec (.sub f) s = .next t ∧ FailsWith s t .integerOverflow (encode s.params.catalog (.sub f)))

/-- SUBU (42_alu_register.md R233). -/
def Obligations.SubuWraps : Prop :=
  EncodedR .subu .subu [.rd, .rs, .rt] ∧
  (∀ (f : RFields) (s : State), ∃ t, exec (.subu f) s = .next t ∧
    WritesRegister s t f.rd (s.readReg f.rs - s.readReg f.rt))

/-- AND (42_alu_register.md R234), bit by bit. -/
def Obligations.AndIsBitwise : Prop :=
  EncodedR .and .and [.rd, .rs, .rt] ∧
  (∀ (f : RFields) (s : State), ∃ t v, exec (.and f) s = .next t ∧ WritesRegister s t f.rd v ∧
    ∀ k < 32, v.getLsbD k = ((s.readReg f.rs).getLsbD k && (s.readReg f.rt).getLsbD k))

/-- OR (42_alu_register.md R235), bit by bit. -/
def Obligations.OrIsBitwise : Prop :=
  EncodedR .or .or [.rd, .rs, .rt] ∧
  (∀ (f : RFields) (s : State), ∃ t v, exec (.or f) s = .next t ∧ WritesRegister s t f.rd v ∧
    ∀ k < 32, v.getLsbD k = ((s.readReg f.rs).getLsbD k || (s.readReg f.rt).getLsbD k))

/-- J (43_jump.md R250, R251, R252): under StubNop it emits JNotice(pc) and advances the pc by 4; under NotImplementedFault it is the
fatal `NotImplemented` with its word, the pc staying; in neither mode does the next pc depend on the target. That the notice is the event
JNotice(pc), and that both modes exist, is the spec's own choice (92_eei_decisions.md D11, D26), and so is the error's record (D21). That
the events are kept in a list is the model's choice (log entry 5); that the recorded word is the encoding of the instruction is its
reading (log entry 11). -/
def Obligations.JumpIsAStub : Prop :=
  Mnemonic.j.operandSyntax = [.address] ∧
  (∀ c : Catalog, c.valid = true →
    (∀ f, encode c (.j f) = (c.j ++ f.target : Word)) ∧
    (∀ w : Word, w.extractLsb' 26 6 = c.j → decode c w = .ok (.j ⟨w.extractLsb' 0 26⟩))) ∧
  (∀ (f : JFields) (s : State), s.params.jMode = .stubNop →
    ∃ t, exec (.j f) s = .next t ∧ EmitsNotice s t) ∧
  (∀ (f : JFields) (s : State), s.params.jMode = .notImplementedFault →
    ∃ t, exec (.j f) s = .next t ∧ FailsWith s t .notImplemented (encode s.params.catalog (.j f))) ∧
  (∀ (f g : JFields) (s t u : State), exec (.j f) s = .next t → exec (.j g) s = .next u → t.pc = u.pc)

/-- ADDI (44_alu_immediate.md R260): the sum with the sign-extended immediate, or `IntegerOverflow` exactly outside the signed
range. The error's record is R301 and R310, its form the spec's own choice
(D21); that the recorded word is the encoding of the instruction is the model's reading (log entry 11). -/
def Obligations.AddiAddsOrOverflows : Prop :=
  EncodedI .addi .addi [.rt, .rs, .immediate] ∧
  (∀ (f : IFields) (s : State), FitsSigned ((s.readReg f.rs).toInt + f.imm.toInt) →
    ∃ t, exec (.addi f) s = .next t ∧ WritesRegister s t f.rt (s.readReg f.rs + f.imm.signExtend 32)) ∧
  (∀ (f : IFields) (s : State), ¬FitsSigned ((s.readReg f.rs).toInt + f.imm.toInt) →
    ∃ t, exec (.addi f) s = .next t ∧ FailsWith s t .integerOverflow (encode s.params.catalog (.addi f)))

/-- ADDIU (44_alu_immediate.md R261): the immediate is sign-extended, the sum wraps. -/
def Obligations.AddiuWraps : Prop :=
  EncodedI .addiu .addiu [.rt, .rs, .immediate] ∧
  (∀ (f : IFields) (s : State), ∃ t, exec (.addiu f) s = .next t ∧
    WritesRegister s t f.rt (s.readReg f.rs + f.imm.signExtend 32))

/-- ANDI (44_alu_immediate.md R262): the immediate is zero-extended, so the upper half of the result is 0. -/
def Obligations.AndiMasksWithZeroExtension : Prop :=
  EncodedI .andi .andi [.rt, .rs, .immediate] ∧
  (∀ (f : IFields) (s : State), ∃ t, exec (.andi f) s = .next t ∧
    WritesRegister s t f.rt (0#16 ++ ((s.readReg f.rs).extractLsb' 0 16 &&& f.imm) : Word))

/-- ORI (44_alu_immediate.md R263): the immediate is zero-extended, so the upper half of x[rs] passes through. -/
def Obligations.OriKeepsTheUpperHalf : Prop :=
  EncodedI .ori .ori [.rt, .rs, .immediate] ∧
  (∀ (f : IFields) (s : State), ∃ t, exec (.ori f) s = .next t ∧
    WritesRegister s t f.rt
      ((s.readReg f.rs).extractLsb' 16 16 ++ ((s.readReg f.rs).extractLsb' 0 16 ||| f.imm) : Word))

/-- LUI (44_alu_immediate.md R264): the immediate in the upper half, 0 in the lower; x[rs] is not read. -/
def Obligations.LuiLoadsTheUpperHalf : Prop :=
  EncodedI .lui .lui [.rt, .immediate] ∧
  (∀ (f : IFields) (s : State), ∃ t, exec (.lui f) s = .next t ∧ WritesRegister s t f.rt (f.imm ++ 0#16 : Word))

/-- LW (45_load_store.md R280): the Word at x[rs] plus the sign-extended offset, modulo 2^32 and whatever its low bits, into x[rt];
an address with no value is the fatal `MemoryAccessError` with that address. The wrap, and the exact address as key, are the spec's own choices
(D6, D14, D29). -/
def Obligations.LwLoadsOrMisses : Prop :=
  EncodedI .lw .lw [.rt, .offsetBase] ∧
  (∀ (f : IFields) (s : State) (v : Word), s.mem.fetch (s.readReg f.rs + f.imm.signExtend 32) = some v →
    ∃ t, exec (.lw f) s = .next t ∧ WritesRegister s t f.rt v) ∧
  (∀ (f : IFields) (s : State), s.mem.fetch (s.readReg f.rs + f.imm.signExtend 32) = none →
    ∃ t, exec (.lw f) s = .next t ∧ FailsWith s t .memoryAccessError (s.readReg f.rs + f.imm.signExtend 32))

/-- SW (45_load_store.md R281): x[rt] goes to the exact address x[rs] plus the sign-extended offset; every other address keeps its
value, and no error is possible. The wrap, and the exact address as key, are the spec's own choices (D6, D14, D29). -/
def Obligations.SwStoresOneWord : Prop :=
  EncodedI .sw .sw [.rt, .offsetBase] ∧
  (∀ (f : IFields) (s : State), ∃ t, exec (.sw f) s = .next t ∧
    StoresWord s t (s.readReg f.rs + f.imm.signExtend 32) (s.readReg f.rt))

/-! The step machine and the fatal error. -/

/-- One step (10_state.md R50): no effect unless Ready; a fetch that misses is `FetchMiss(pc)`; a word with no descriptor is
`UnknownInstruction(word)`; a word that decodes is executed, with nothing around it. The first
three outcomes are the spec's own choices (D12, D8, D9). -/
def Obligations.StepRunsTheDecodedInstruction : Prop :=
  (∀ s : State, s.status ≠ .ready → step s = .next s) ∧
  (∀ s : State, s.status = .ready → s.mem.fetch s.pc = none →
    ∃ t, step s = .next t ∧ FailsWith s t .fetchMiss s.pc) ∧
  (∀ (s : State) (w : Word), s.status = .ready → s.mem.fetch s.pc = some w → dispatch s.params.catalog w = none →
    ∃ t, step s = .next t ∧ FailsWith s t .unknownInstruction w) ∧
  (∀ (s : State) (w : Word) (i : Instr), s.status = .ready → s.mem.fetch s.pc = some w →
    decode s.params.catalog w = .ok i → step s = exec i s)

/-- Every step answers a next state: unchanged while Faulted; else completed, with the pc advanced by 4 modulo 2^32, or failed, with
the pc where it was (10_state.md R38). The wrap is the spec's own choice (D5), and
so is that a step while Faulted has no effect (R50, R55, D12; log entry 13). -/
def Obligations.EveryStepAdvancesOrFails : Prop :=
  ∀ s : State, ∃ t, step s = .next t ∧
    ((s.status ≠ .ready ∧ t = s) ∨
     (s.status = .ready ∧ t.status = .ready ∧ t.pc = s.pc + 4) ∨
     (s.status = .ready ∧ (∃ kind info, t.status = .faulted kind s.pc info) ∧ t.pc = s.pc))

/-- The order and the kinds of errors (60_exceptions.md R320): a fetch miss comes first, then an unknown instruction, then the
instruction's own error, of the one kind that instruction can raise. The order, and the two errors before the execute stage, are the spec's own
choices (D20, D8, D9). -/
def Obligations.ErrorsComeInOrder : Prop :=
  (∀ s : State, s.status = .ready → s.mem.fetch s.pc = none →
    ∃ t, step s = .next t ∧ t.status = .faulted .fetchMiss s.pc s.pc) ∧
  (∀ (s : State) (w : Word), s.status = .ready → s.mem.fetch s.pc = some w → dispatch s.params.catalog w = none →
    ∃ t, step s = .next t ∧ t.status = .faulted .unknownInstruction s.pc w) ∧
  (∀ (i : Instr) (s : State), ∃ t, exec i s = .next t ∧
    (t.status = s.status ∨ ∃ kind info, errorKindOf i = some kind ∧ t.status = .faulted kind s.pc info)) ∧
  (∀ (f : JFields) (s t : State), s.params.jMode = .stubNop → exec (.j f) s = .next t → t.status = s.status)

/-- A fatal error commits no write of its step: the state it leaves differs from the one before in the status alone, which names the
pc of the faulting instruction; and a Run goes no further (60_exceptions.md R301). The form of the record is the spec's own choice (D21). -/
def Obligations.FatalErrorWritesNothing : Prop :=
  (∀ (s t : State) (kind : ErrorKind) (errPc info : Word), s.status = .ready → step s = .next t →
    t.status = .faulted kind errPc info → errPc = s.pc ∧ t = { s with status := .faulted kind s.pc info }) ∧
  (∀ (endCond : State → Bool) (boundaries : List Pending) (t : State), t.status ≠ .ready →
    (∀ p ∈ boundaries, p.reset = false) → (runWith endCond boundaries t).2 = t)

/-- Nothing but Reset leaves the Faulted status: whatever other moves the host makes, and however many, the state stays as it is;
Reset makes it Ready (60_exceptions.md R322, 10_state.md R55). That the status is sticky is the spec's own choice (D12). -/
def Obligations.OnlyResetLeavesFaulted : Prop :=
  (∀ (l : Launch) (s : State) (moves : List Control), s.status ≠ .ready → .reset ∉ moves →
    (∀ boundaries, .run boundaries ∈ moves → ∀ p ∈ boundaries, p.reset = false) →
    applyControls l moves s = s) ∧
  (∀ (l : Launch) (s : State), (applyControl l .reset s).status = .ready)

/-- hi and lo (41_muldiv_hilo.md R217): MULT, MULTU and DIV alone write them, each writes both at once (what they hold after it does not
depend on what they held before), and every other instruction, MFHI and MFLO among them, leaves both. The spec derives this rule from R210 to
R214. -/
def Obligations.HiLoControllerLaws : Prop :=
  (∀ (i : Instr) (s t : State), exec i s = .next t → i.mnemonic ≠ .mult → i.mnemonic ≠ .multu → i.mnemonic ≠ .div →
    t.hi = s.hi ∧ t.lo = s.lo) ∧
  (∀ (i : Instr) (s : State) (hi lo : Word), i.mnemonic = .mult ∨ i.mnemonic = .multu ∨ i.mnemonic = .div →
    exec i (s.writeHiLo hi lo) = exec i s)

/-- Which operations reach memory (20_memory.md R74): SW alone changes it; an instruction that is neither LW nor SW behaves alike
whatever memory holds. -/
def Obligations.OnlyLoadAndStoreReachMemory : Prop :=
  (∀ (i : Instr) (s t : State), exec i s = .next t → i.mnemonic ≠ .sw → t.mem = s.mem) ∧
  (∀ (i : Instr) (s t : State) (m : Memory), exec i s = .next t → i.mnemonic ≠ .lw → i.mnemonic ≠ .sw →
    exec i { s with mem := m } = .next { t with mem := m })

/-- Both shifts read x[rt] and shamt alone, write x[rd] and the pc alone, and never raise an error (40_shift.md R202): the `rs` field
does not matter, and two states that agree on x[rt] and ZERO_WRITES get the same x[rd]. The spec derives this rule from R200 and R201. -/
def Obligations.ShiftsReadOnlyRtAndShamt : Prop :=
  ∀ i ∈ [Instr.sll, Instr.srl],
    (∀ (f : RFields) (rs : RegIndex) (s : State), exec (i { f with rs := rs }) s = exec (i f) s) ∧
    (∀ (f : RFields) (s t s' t' : State), s.readReg f.rt = s'.readReg f.rt → s.params = s'.params →
      exec (i f) s = .next t → exec (i f) s' = .next t' → t.readReg f.rd = t'.readReg f.rd) ∧
    (∀ (f : RFields) (s : State), ∃ t v, exec (i f) s = .next t ∧ WritesRegister s t f.rd v)

/-- Where ADD, SUB and ADDI complete, ADDU, SUBU and ADDIU on the same operands give the same next state
(42_alu_register.md R236). The spec derives this rule from R230 to R235. -/
def Obligations.WrappingAgreesWithChecked : Prop :=
  ∀ (s t : State), s.status = .ready → t.status = .ready →
    (∀ f : RFields, exec (.add f) s = .next t → exec (.addu f) s = .next t) ∧
    (∀ f : RFields, exec (.sub f) s = .next t → exec (.subu f) s = .next t) ∧
    (∀ f : IFields, exec (.addi f) s = .next t → exec (.addiu f) s = .next t)

/-- A stored Word is what a later fetch and a later LW at that address see, with no fence (20_memory.md R82, R85): in any Ready state
with that memory whose pc is the stored address, the step runs the stored Word's instruction; a load of it reads it. The exact address as
key is the spec's own choice (D14). -/
def Obligations.StoredWordIsExecuted : Prop :=
  ∀ (f : IFields) (s t u : State), exec (.sw f) s = .next t → u.mem = t.mem →
    (∀ i : Instr, u.status = .ready → u.pc = s.readReg f.rs + f.imm.signExtend 32 →
      decode u.params.catalog (s.readReg f.rt) = .ok i → step u = exec i u) ∧
    (∀ g : IFields, u.readReg g.rs + g.imm.signExtend 32 = s.readReg f.rs + f.imm.signExtend 32 →
      ∃ v, exec (.lw g) u = .next v ∧ WritesRegister u v g.rt (s.readReg f.rt))

/-! Reset, launch, run. -/

/-- After a reset: every register, hi and lo 0, the pc at RESET_PC, Ready, memory and parameters as they were. A launch that is not
refused gives the same values, with its parameters, no event, and in memory, at every address, the last Word its image lists there and
nothing else (20_memory.md R73, 70_reset_and_hazards.md R340, R350, R353); the default RESET_PC is 0. The values are the spec's own
choice (D4, D25), and so is the map (D14). That memory and parameters stay at a reset is log entry 6, the parameters and the events in
State log entries 1 and 5, and that the last Word listed counts log entry 15. -/
def Obligations.ResetState : Prop :=
  (∀ s : State, (∀ r, (applyReset s).readReg r = 0x00000000) ∧ (applyReset s).hi = 0x00000000 ∧
    (applyReset s).lo = 0x00000000 ∧ (applyReset s).pc = s.params.resetPc ∧ (applyReset s).status = .ready ∧
    (applyReset s).mem = s.mem ∧ (applyReset s).params = s.params) ∧
  (∀ (l : Launch) (t : State), launch l = .next t →
    (∀ r, t.readReg r = 0x00000000) ∧ t.hi = 0x00000000 ∧ t.lo = 0x00000000 ∧ t.pc = l.params.resetPc ∧ t.status = .ready ∧
    t.params = l.params ∧ t.notices = [] ∧
    (∀ a : Word, t.mem.fetch a = (l.image.reverse.find? fun e => e.1 = a).map (·.2))) ∧
  State.reset.pc = 0x00000000 ∧ Config.instructionWidth = 4

/-- A launch is refused exactly if its RESET_PC is no multiple of 4 or its CATALOG binds two mnemonics to one code
(70_reset_and_hazards.md R341, R353; 30_encoding.md R111), whatever its END and its image. That the non-R codes are not 0 is the catalog
check's reading of R104 (log entry 7); that a misaligned RESET_PC is named where both hold is log entry 12. The refusal of a misaligned
RESET_PC is the spec's own choice (D25). -/
def Obligations.LaunchRefusesExactly : Prop :=
  ∀ l : Launch,
    (launch l = .refused .misalignedResetPc ↔ l.params.resetPc.toNat % 4 ≠ 0) ∧
    ((∃ t, launch l = .next t) ↔
      l.params.resetPc.toNat % 4 = 0 ∧
      (∀ m n : Mnemonic, m.format = .r → n.format = .r → l.params.catalog.code m = l.params.catalog.code n → m = n) ∧
      (∀ m n : Mnemonic, m.format ≠ .r → n.format ≠ .r → l.params.catalog.code m = l.params.catalog.code n → m = n) ∧
      (∀ m : Mnemonic, m.format ≠ .r → l.params.catalog.code m ≠ 0))

/-- The pc stays a multiple of 4 (10_state.md R39, 20_memory.md R77): a step keeps it one; so does every host move, where RESET_PC is
one; and so it is one in every state a host can bring about, which makes every instruction fetch aligned. The spec derives the rule from
R38 and its launch precondition (D5, D25); RESET_PC is read from the parameters in State (log entry 1). -/
def Obligations.PcStaysAligned : Prop :=
  (∀ s t : State, s.pcAligned → step s = .next t → t.pcAligned) ∧
  (∀ (l : Launch) (m : Control) (s : State), s.params.resetPc.toNat % 4 = 0 → s.pcAligned → (applyControl l m s).pcAligned) ∧
  (∀ s : State, Reachable s → s.pc.toNat % 4 = 0)

/-- The reset state meets the invariant, and has no fault record to be false (70_reset_and_hazards.md R340). Its parameters are the
defaults, in State by the model's choice (log entry 1), and its memory is empty (log entry 3), in the model's canonical form (log
entry 2). -/
def Obligations.ResetMeetsTheInvariant : Prop := State.reset.Inv ∧ State.reset.faultRecordOk

/-- Every step keeps the invariant: canonical memory, pc a multiple of 4, valid parameters, register 0 at 0 under Discarded (10_state.md
R34, R39, 70_reset_and_hazards.md R353). The canonical form of memory is the model's own (log entry 2), and so is the parameters' place in
State (log entry 1). -/
def Obligations.StepKeepsTheInvariant : Prop :=
  ∀ s t : State, s.Inv → step s = .next t → t.Inv

/-- A launch that is not refused establishes the invariant and every host move keeps it, so that every state a host can bring about meets
it; and no host move changes the parameters (10_state.md R46, 70_reset_and_hazards.md R353). The canonical form of memory is the model's
own (log entry 2), and so is the parameters' place in State (log entry 1). -/
def Obligations.HostMovesKeepTheInvariant : Prop :=
  (∀ (l : Launch) (t : State), launch l = .next t → t.Inv) ∧
  (∀ (l : Launch) (m : Control) (s : State), s.Inv → (applyControl l m s).Inv) ∧
  (∀ s : State, Reachable s → s.Inv) ∧
  (∀ (l : Launch) (s : State) (moves : List Control), (applyControls l moves s).params = s.params)

/-- Every step keeps the fault record true of the state: a recorded error names the pc it stands at, and its kind and context are those
of the instruction there (60_exceptions.md R301, R302, R310 to R314). The record and the
kinds are the spec's own choices (D8, D9, D11, D21); that the word is rebuilt from the instruction is log entry 11. -/
def Obligations.StepKeepsTheFaultRecord : Prop :=
  ∀ s t : State, s.Inv → s.faultRecordOk → step s = .next t → t.faultRecordOk

/-- `run()` (10_state.md R53, 60_exceptions.md R321): END or a pending Halt stops it with no state change; a status that is not Ready stops
it; else it steps and goes on; a pending Reset is applied even where a Halt is pending too; and a run that was cut off goes on from
the same state. END, and Reset winning, are the spec's own choices (D13, D27);
that a run ends at a Reset, and that a Reset pending where END holds or where the status is Faulted is
applied, are the model's (log entry 9). -/
def Obligations.RunStopsOrSteps : Prop :=
  ∀ (endCond : State → Bool) (p : Pending) (rest more : List Pending) (s : State),
    (p.reset = true → (runWith endCond (p :: rest) s).2 = applyReset s) ∧
    (p.reset = false → endCond s = true ∨ p.halt = true → (runWith endCond (p :: rest) s).2 = s) ∧
    (p.reset = false → s.status ≠ .ready → (runWith endCond (p :: rest) s).2 = s) ∧
    (p.reset = false → endCond s = false → p.halt = false → s.status = .ready →
      ∃ t, step s = .next t ∧ runWith endCond (p :: rest) s = runWith endCond rest t) ∧
    ((runWith endCond rest s).1 = .running →
      runWith endCond (rest ++ more) s = runWith endCond more (runWith endCond rest s).2)

/-- A word placed where the step fetches is the instruction the step runs: with the word of any instruction at the pc, `step` is `exec` of
that instruction (10_state.md R50, 20_memory.md R73). The placement is the model's own (log entry 3). -/
def Obligations.PlacedWordIsRun : Prop :=
  ∀ (s : State) (i : Instr), s.params.catalog.valid = true →
    step (s.withFetchWord 32 (encode s.params.catalog i).toNat) =
      exec i (s.withFetchWord 32 (encode s.params.catalog i).toNat)

/-! Canonical text. -/

/-- Canonical text, by operand sub-pattern (30_encoding.md R150, R151): the lower-case mnemonic, then each operand after one space;
registers as `$` and the number, immediates and offsets as signed decimals, a load or store operand as offset(base), the J address as
the decimal of the raw field times 4. The operand order, the signed rendering and J's are the spec's own choices (D16). -/
def Obligations.CanonicalTextOfEachSubPattern : Prop :=
  Mnemonic.all.map (fun m => String.ofList m.symbol) =
    ["sll", "srl", "mfhi", "mflo", "mult", "multu", "div", "add", "addu", "sub", "subu", "and", "or", "j",
     "addi", "addiu", "andi", "ori", "lui", "lw", "sw"] ∧
  (∀ i ∈ [Instr.sll, Instr.srl], ∀ f, canonicalText (i f) =
    listed (i f).mnemonic [registerName f.rd, registerName f.rt, decimal f.shamt.toNat]) ∧
  (∀ i ∈ [Instr.mfhi, Instr.mflo], ∀ f, canonicalText (i f) = listed (i f).mnemonic [registerName f.rd]) ∧
  (∀ i ∈ [Instr.mult, Instr.multu, Instr.div], ∀ f, canonicalText (i f) =
    listed (i f).mnemonic [registerName f.rs, registerName f.rt]) ∧
  (∀ i ∈ [Instr.add, Instr.addu, Instr.sub, Instr.subu, Instr.and, Instr.or], ∀ f, canonicalText (i f) =
    listed (i f).mnemonic [registerName f.rd, registerName f.rs, registerName f.rt]) ∧
  (∀ f, canonicalText (.j f) = listed .j [decimal (f.target.toNat * 4)]) ∧
  (∀ i ∈ [Instr.addi, Instr.addiu, Instr.andi, Instr.ori], ∀ f, canonicalText (i f) =
    listed (i f).mnemonic [registerName f.rt, registerName f.rs, decimal f.imm.toInt]) ∧
  (∀ f, canonicalText (.lui f) = listed .lui [registerName f.rt, decimal f.imm.toInt]) ∧
  (∀ i ∈ [Instr.lw, Instr.sw], ∀ f, canonicalText (i f) =
    listed (i f).mnemonic [registerName f.rt, decimal f.imm.toInt ++ ['('] ++ registerName f.rs ++ [')']])
end

