-- ==== Sys2Proof/Laws/State.lean ====
section
/-! SUPPORT. What each update of the state leaves in each field, and how reading a register sees each update. -/

namespace Sys2Proof.Machine

/-! `writeHiLo` -/

@[simp] theorem writeHiLo_regs (s : State) (hi lo : Word) : (s.writeHiLo hi lo).regs = s.regs := rfl
@[simp] theorem writeHiLo_pc (s : State) (hi lo : Word) : (s.writeHiLo hi lo).pc = s.pc := rfl
@[simp] theorem writeHiLo_hi (s : State) (hi lo : Word) : (s.writeHiLo hi lo).hi = hi := rfl
@[simp] theorem writeHiLo_lo (s : State) (hi lo : Word) : (s.writeHiLo hi lo).lo = lo := rfl
@[simp] theorem writeHiLo_status (s : State) (hi lo : Word) : (s.writeHiLo hi lo).status = s.status := rfl
@[simp] theorem writeHiLo_mem (s : State) (hi lo : Word) : (s.writeHiLo hi lo).mem = s.mem := rfl
@[simp] theorem writeHiLo_notices (s : State) (hi lo : Word) : (s.writeHiLo hi lo).notices = s.notices := rfl
@[simp] theorem writeHiLo_params (s : State) (hi lo : Word) : (s.writeHiLo hi lo).params = s.params := rfl
@[simp] theorem writeHiLo_readReg (s : State) (hi lo : Word) (i : RegIndex) : (s.writeHiLo hi lo).readReg i = s.readReg i := rfl

/-! `memWrite` -/

@[simp] theorem memWrite_regs (s : State) (a v : Word) : (s.memWrite a v).regs = s.regs := rfl
@[simp] theorem memWrite_pc (s : State) (a v : Word) : (s.memWrite a v).pc = s.pc := rfl
@[simp] theorem memWrite_hi (s : State) (a v : Word) : (s.memWrite a v).hi = s.hi := rfl
@[simp] theorem memWrite_lo (s : State) (a v : Word) : (s.memWrite a v).lo = s.lo := rfl
@[simp] theorem memWrite_status (s : State) (a v : Word) : (s.memWrite a v).status = s.status := rfl
@[simp] theorem memWrite_mem (s : State) (a v : Word) : (s.memWrite a v).mem = s.mem.store a v := rfl
@[simp] theorem memWrite_notices (s : State) (a v : Word) : (s.memWrite a v).notices = s.notices := rfl
@[simp] theorem memWrite_params (s : State) (a v : Word) : (s.memWrite a v).params = s.params := rfl
@[simp] theorem memWrite_readReg (s : State) (a v : Word) (i : RegIndex) : (s.memWrite a v).readReg i = s.readReg i := rfl

/-! `emitNotice` -/

@[simp] theorem emitNotice_regs (s : State) : (s.emitNotice).regs = s.regs := rfl
@[simp] theorem emitNotice_pc (s : State) : (s.emitNotice).pc = s.pc := rfl
@[simp] theorem emitNotice_hi (s : State) : (s.emitNotice).hi = s.hi := rfl
@[simp] theorem emitNotice_lo (s : State) : (s.emitNotice).lo = s.lo := rfl
@[simp] theorem emitNotice_status (s : State) : (s.emitNotice).status = s.status := rfl
@[simp] theorem emitNotice_mem (s : State) : (s.emitNotice).mem = s.mem := rfl
@[simp] theorem emitNotice_notices (s : State) : (s.emitNotice).notices = s.notices ++ [s.pc] := rfl
@[simp] theorem emitNotice_params (s : State) : (s.emitNotice).params = s.params := rfl
@[simp] theorem emitNotice_readReg (s : State) (i : RegIndex) : (s.emitNotice).readReg i = s.readReg i := rfl

/-! `advance` -/

@[simp] theorem advance_regs (s : State) : (s.advance).regs = s.regs := rfl
@[simp] theorem advance_pc (s : State) : (s.advance).pc = nextPc s.pc := rfl
@[simp] theorem advance_hi (s : State) : (s.advance).hi = s.hi := rfl
@[simp] theorem advance_lo (s : State) : (s.advance).lo = s.lo := rfl
@[simp] theorem advance_status (s : State) : (s.advance).status = s.status := rfl
@[simp] theorem advance_mem (s : State) : (s.advance).mem = s.mem := rfl
@[simp] theorem advance_notices (s : State) : (s.advance).notices = s.notices := rfl
@[simp] theorem advance_params (s : State) : (s.advance).params = s.params := rfl
@[simp] theorem advance_readReg (s : State) (i : RegIndex) : (s.advance).readReg i = s.readReg i := rfl

/-! `raise` -/

@[simp] theorem raise_regs (s : State) (kind : ErrorKind) (info : Word) : (s.raise kind info).regs = s.regs := rfl
@[simp] theorem raise_pc (s : State) (kind : ErrorKind) (info : Word) : (s.raise kind info).pc = s.pc := rfl
@[simp] theorem raise_hi (s : State) (kind : ErrorKind) (info : Word) : (s.raise kind info).hi = s.hi := rfl
@[simp] theorem raise_lo (s : State) (kind : ErrorKind) (info : Word) : (s.raise kind info).lo = s.lo := rfl
@[simp] theorem raise_status (s : State) (kind : ErrorKind) (info : Word) : (s.raise kind info).status = .faulted kind s.pc info := rfl
@[simp] theorem raise_mem (s : State) (kind : ErrorKind) (info : Word) : (s.raise kind info).mem = s.mem := rfl
@[simp] theorem raise_notices (s : State) (kind : ErrorKind) (info : Word) : (s.raise kind info).notices = s.notices := rfl
@[simp] theorem raise_params (s : State) (kind : ErrorKind) (info : Word) : (s.raise kind info).params = s.params := rfl
@[simp] theorem raise_readReg (s : State) (kind : ErrorKind) (info : Word) (i : RegIndex) : (s.raise kind info).readReg i = s.readReg i := rfl

/-! `writeReg` -/

@[simp] theorem writeReg_pc (s : State) (i : RegIndex) (v : Word) : (s.writeReg i v).pc = s.pc := by
  unfold State.writeReg; split <;> rfl
@[simp] theorem writeReg_hi (s : State) (i : RegIndex) (v : Word) : (s.writeReg i v).hi = s.hi := by
  unfold State.writeReg; split <;> rfl
@[simp] theorem writeReg_lo (s : State) (i : RegIndex) (v : Word) : (s.writeReg i v).lo = s.lo := by
  unfold State.writeReg; split <;> rfl
@[simp] theorem writeReg_status (s : State) (i : RegIndex) (v : Word) : (s.writeReg i v).status = s.status := by
  unfold State.writeReg; split <;> rfl
@[simp] theorem writeReg_mem (s : State) (i : RegIndex) (v : Word) : (s.writeReg i v).mem = s.mem := by
  unfold State.writeReg; split <;> rfl
@[simp] theorem writeReg_notices (s : State) (i : RegIndex) (v : Word) : (s.writeReg i v).notices = s.notices := by
  unfold State.writeReg; split <;> rfl
@[simp] theorem writeReg_params (s : State) (i : RegIndex) (v : Word) : (s.writeReg i v).params = s.params := by
  unfold State.writeReg; split <;> rfl

/-- A register reads back what was written to it, unless it is register 0 under Discarded (10_state.md R33). -/
theorem readReg_writeReg_same (s : State) (i : RegIndex) (v : Word) (h : ¬(i = 0 ∧ s.params.zeroWrites = .discarded)) :
    (s.writeReg i v).readReg i = v := by
  unfold State.readReg
  rw [writeReg_params, if_neg h]
  unfold State.writeReg
  simp only [if_neg h, Vector.getElem_set_self]

/-- Every other register reads as before. -/
theorem readReg_writeReg_ne (s : State) (i j : RegIndex) (v : Word) (h : j ≠ i) :
    (s.writeReg i v).readReg j = s.readReg j := by
  have hne : i.toNat ≠ j.toNat := fun e => h (BitVec.eq_of_toNat_eq e.symm)
  unfold State.readReg
  rw [writeReg_params]
  split
  · rfl
  · unfold State.writeReg
    split
    · rfl
    · exact Vector.getElem_set_ne i.isLt j.isLt hne

/-- Under Discarded a write of register 0 changes nothing (10_state.md R33). -/
theorem writeReg_zero_discarded (s : State) (v : Word) (h : s.params.zeroWrites = .discarded) :
    s.writeReg 0 v = s := by
  simp [State.writeReg, h]

/-- Under Discarded register 0 reads 0 (10_state.md R34). -/
theorem readReg_zero_discarded (s : State) (h : s.params.zeroWrites = .discarded) : s.readReg 0 = 0 := by
  simp [State.readReg, h]

/-! `afterReset` and `applyReset` -/

@[simp] theorem afterReset_regs (p : Params) (m : Memory) (events : List Word) :
    (State.afterReset p m events).regs = Vector.replicate 32 0x00000000 := rfl
@[simp] theorem afterReset_pc (p : Params) (m : Memory) (events : List Word) :
    (State.afterReset p m events).pc = p.resetPc := rfl
@[simp] theorem afterReset_hi (p : Params) (m : Memory) (events : List Word) :
    (State.afterReset p m events).hi = 0x00000000 := rfl
@[simp] theorem afterReset_lo (p : Params) (m : Memory) (events : List Word) :
    (State.afterReset p m events).lo = 0x00000000 := rfl
@[simp] theorem afterReset_status (p : Params) (m : Memory) (events : List Word) :
    (State.afterReset p m events).status = .ready := rfl
@[simp] theorem afterReset_mem (p : Params) (m : Memory) (events : List Word) :
    (State.afterReset p m events).mem = m := rfl
@[simp] theorem afterReset_notices (p : Params) (m : Memory) (events : List Word) :
    (State.afterReset p m events).notices = events := rfl
@[simp] theorem afterReset_params (p : Params) (m : Memory) (events : List Word) :
    (State.afterReset p m events).params = p := rfl

/-- After a reset every register reads 0 (70_reset_and_hazards.md R340). -/
@[simp] theorem afterReset_readReg (p : Params) (m : Memory) (events : List Word) (i : RegIndex) :
    (State.afterReset p m events).readReg i = 0 := by
  unfold State.readReg; split
  · rfl
  · exact Vector.getElem_replicate _

end Sys2Proof.Machine
end

