-- ==== Sys2Proof/Laws/Exec.lean ====
section
/-! SUPPORT. Once for all: what a shared operation, an instruction and a step can do. -/

namespace Sys2Proof.Machine

/-- A checked signed result either raises `IntegerOverflow` or writes its destination. -/
theorem completeSigned_cases (i : Instr) (dst : RegIndex) (r : Int) (s : State) :
    (detectSignedOverflow r = true ∧
      completeSigned i dst r s = .next (s.raise .integerOverflow (instructionWord s i))) ∨
    (detectSignedOverflow r = false ∧ completeSigned i dst r s = .next (s.writeReg dst (w32 r)).advance) := by
  unfold completeSigned
  cases h : detectSignedOverflow r
  · exact .inr ⟨rfl, rfl⟩
  · exact .inl ⟨rfl, rfl⟩

/-- ADD overflows and raises, or writes its destination. -/
theorem execAdd_cases (f : RFields) (s : State) :
    (detectSignedOverflow (toSigned (s.readReg f.rs) + toSigned (s.readReg f.rt)) = true ∧
      execAdd f s = .next (s.raise .integerOverflow (instructionWord s (.add f)))) ∨
    (detectSignedOverflow (toSigned (s.readReg f.rs) + toSigned (s.readReg f.rt)) = false ∧
      execAdd f s = .next (s.writeReg f.rd (w32 (toSigned (s.readReg f.rs) + toSigned (s.readReg f.rt)))).advance) :=
  completeSigned_cases (.add f) f.rd _ s

/-- SUB overflows and raises, or writes its destination. -/
theorem execSub_cases (f : RFields) (s : State) :
    (detectSignedOverflow (toSigned (s.readReg f.rs) - toSigned (s.readReg f.rt)) = true ∧
      execSub f s = .next (s.raise .integerOverflow (instructionWord s (.sub f)))) ∨
    (detectSignedOverflow (toSigned (s.readReg f.rs) - toSigned (s.readReg f.rt)) = false ∧
      execSub f s = .next (s.writeReg f.rd (w32 (toSigned (s.readReg f.rs) - toSigned (s.readReg f.rt)))).advance) :=
  completeSigned_cases (.sub f) f.rd _ s

/-- ADDI overflows and raises, or writes its destination. -/
theorem execAddi_cases (f : IFields) (s : State) :
    (detectSignedOverflow (toSigned (s.readReg f.rs) + toSigned (signedImm f)) = true ∧
      execAddi f s = .next (s.raise .integerOverflow (instructionWord s (.addi f)))) ∨
    (detectSignedOverflow (toSigned (s.readReg f.rs) + toSigned (signedImm f)) = false ∧
      execAddi f s = .next (s.writeReg f.rt (w32 (toSigned (s.readReg f.rs) + toSigned (signedImm f)))).advance) :=
  completeSigned_cases (.addi f) f.rt _ s

/-- J emits its notice and advances, or raises `NotImplemented`. -/
theorem execJ_cases (f : JFields) (s : State) :
    (s.params.jMode = .stubNop ∧ execJ f s = .next s.emitNotice.advance) ∨
    (s.params.jMode = .notImplementedFault ∧
      execJ f s = .next (s.raise .notImplemented (instructionWord s (.j f)))) := by
  unfold execJ
  cases h : s.params.jMode
  · exact .inl ⟨rfl, rfl⟩
  · exact .inr ⟨rfl, rfl⟩

/-- LW loads what its address holds, or raises `MemoryAccessError`. -/
theorem execLw_cases (f : IFields) (s : State) :
    (∃ v, s.memRead (effectiveAddress s f) = some v ∧ execLw f s = .next (s.writeReg f.rt v).advance) ∨
    (s.memRead (effectiveAddress s f) = none ∧
      execLw f s = .next (s.raise .memoryAccessError (effectiveAddress s f))) := by
  unfold execLw
  cases h : s.memRead (effectiveAddress s f) with
  | none => exact .inr ⟨rfl, rfl⟩
  | some v => exact .inl ⟨v, rfl, rfl⟩

/-- What an instruction can do, whichever it is: one register, or hi and lo, or one memory word, or an event, with the pc
advanced; or a fatal error with nothing else changed. -/
inductive Effect (s : State) : State → Prop where
  | register (i : RegIndex) (v : Word) : Effect s (s.writeReg i v).advance
  | hiLo (hi lo : Word) : Effect s (s.writeHiLo hi lo).advance
  | memory (a v : Word) : Effect s (s.memWrite a v).advance
  | notice : Effect s s.emitNotice.advance
  | error (kind : ErrorKind) (info : Word) : Effect s (s.raise kind info)

/-- The inversion lemma of `exec`: it answers a next state, and that state is one of the effects. -/
theorem exec_effect (i : Instr) (s : State) : ∃ t, exec i s = .next t ∧ Effect s t := by
  cases i with
  | sll f => exact ⟨_, rfl, .register _ _⟩
  | srl f => exact ⟨_, rfl, .register _ _⟩
  | mfhi f => exact ⟨_, rfl, .register _ _⟩
  | mflo f => exact ⟨_, rfl, .register _ _⟩
  | mult f => exact ⟨_, rfl, .hiLo _ _⟩
  | multu f => exact ⟨_, rfl, .hiLo _ _⟩
  | div f => exact ⟨_, rfl, .hiLo _ _⟩
  | add f =>
    rcases execAdd_cases f s with ⟨-, h⟩ | ⟨-, h⟩
    · exact ⟨_, h, .error _ _⟩
    · exact ⟨_, h, .register _ _⟩
  | addu f => exact ⟨_, rfl, .register _ _⟩
  | sub f =>
    rcases execSub_cases f s with ⟨-, h⟩ | ⟨-, h⟩
    · exact ⟨_, h, .error _ _⟩
    · exact ⟨_, h, .register _ _⟩
  | subu f => exact ⟨_, rfl, .register _ _⟩
  | and f => exact ⟨_, rfl, .register _ _⟩
  | or f => exact ⟨_, rfl, .register _ _⟩
  | j f =>
    rcases execJ_cases f s with ⟨-, h⟩ | ⟨-, h⟩
    · exact ⟨_, h, .notice⟩
    · exact ⟨_, h, .error _ _⟩
  | addi f =>
    rcases execAddi_cases f s with ⟨-, h⟩ | ⟨-, h⟩
    · exact ⟨_, h, .error _ _⟩
    · exact ⟨_, h, .register _ _⟩
  | addiu f => exact ⟨_, rfl, .register _ _⟩
  | andi f => exact ⟨_, rfl, .register _ _⟩
  | ori f => exact ⟨_, rfl, .register _ _⟩
  | lui f => exact ⟨_, rfl, .register _ _⟩
  | lw f =>
    rcases execLw_cases f s with ⟨v, -, h⟩ | ⟨-, h⟩
    · exact ⟨_, h, .register _ _⟩
    · exact ⟨_, h, .error _ _⟩
  | sw f => exact ⟨_, rfl, .memory _ _⟩

/-- What a fetch and decode can answer. -/
theorem fetchDecode_cases (s : State) :
    (s.mem.fetch s.pc = none ∧ fetchDecode s = .error (.fetchMiss, s.pc)) ∨
    (∃ w r, s.mem.fetch s.pc = some w ∧ decode s.params.catalog w = .error r ∧
      fetchDecode s = .error (.unknownInstruction, w)) ∨
    (∃ w i, s.mem.fetch s.pc = some w ∧ decode s.params.catalog w = .ok i ∧ fetchDecode s = .ok i) := by
  unfold fetchDecode State.memRead
  cases hf : s.mem.fetch s.pc with
  | none => exact .inl ⟨rfl, rfl⟩
  | some w =>
    cases hd : decode s.params.catalog w with
    | error r => exact .inr (.inl ⟨w, r, rfl, hd, by simp [hd]⟩)
    | ok i => exact .inr (.inr ⟨w, i, rfl, hd, by simp [hd]⟩)

end Sys2Proof.Machine
end

