-- ==== Sys2Proof/Laws/Control.lean ====
section
/-! SUPPORT. What a step, a Run and a host move can do, and the induction over them, once for all (10_state.md R46, R50, R53). -/

namespace Sys2Proof.Machine

/-- A step of a Ready state has one of the effects; a step of any other state has none. -/
theorem step_effect (s : State) : ∃ t, step s = .next t ∧ ((s.status = .ready ∧ Effect s t) ∨ (s.status ≠ .ready ∧ t = s)) := by
  unfold step
  split
  · rename_i h; exact ⟨s, rfl, .inr ⟨by rw [h]; exact nofun, rfl⟩⟩
  · rename_i h
    split
    · exact ⟨_, rfl, .inl ⟨h, .error _ _⟩⟩
    · rename_i i _
      obtain ⟨t, ht, he⟩ := exec_effect i s
      exact ⟨t, ht, .inl ⟨h, he⟩⟩

/-- `applyStep` is the state that `step` answers. -/
theorem step_eq_applyStep (s : State) : step s = .next (applyStep s) := by
  obtain ⟨t, h, -⟩ := step_effect s
  unfold applyStep; rw [h]

/-- What a Reset and a step keep, a Run keeps. -/
theorem runWith_keeps (P : State → Prop) (hReset : ∀ s, P s → P (applyReset s)) (hStep : ∀ s, P s → P (applyStep s))
    (endCond : State → Bool) (boundaries : List Pending) (s : State) (h : P s) : P (runWith endCond boundaries s).2 := by
  induction boundaries generalizing s with
  | nil => exact h
  | cons p rest ih =>
    unfold runWith
    split_ifs
    · exact hReset s h
    · exact h
    · exact h
    · exact ih _ (hStep s h)
    · exact h

/-- What a Reset and a step keep, every host move keeps. -/
theorem applyControl_keeps (P : State → Prop) (hReset : ∀ s, P s → P (applyReset s)) (hStep : ∀ s, P s → P (applyStep s))
    (l : Launch) (m : Control) (s : State) (h : P s) : P (applyControl l m s) := by
  cases m with
  | reset => exact hReset s h
  | step => exact hStep s h
  | run boundaries => exact runWith_keeps P hReset hStep _ _ s h
  | halt => exact h

/-- What every host move keeps, a sequence of them keeps. -/
theorem applyControls_keeps (P : State → Prop) (l : Launch) (hMove : ∀ m s, P s → P (applyControl l m s))
    (moves : List Control) (s : State) (h : P s) : P (applyControls l moves s) := by
  unfold applyControls
  induction moves generalizing s with
  | nil => exact h
  | cons m rest ih => exact ih _ (hMove m s h)

/-- A launch that is not refused had a RESET_PC that is a multiple of 4 and a valid CATALOG, and gives the reset state. -/
theorem launch_next (l : Launch) (t : State) (h : launch l = .next t) :
    l.params.resetPc.toNat % Config.instructionWidth = 0 ∧ l.params.catalog.valid = true ∧
      t = State.afterReset l.params (imageMemory l.image) [] := by
  unfold launch at h
  split_ifs at h with h1 h2
  cases h
  exact ⟨not_not.mp h1, by simpa using h2, rfl⟩

end Sys2Proof.Machine
end

