-- ==== Sys2Proof/Laws/Memory.lean ====
section
/-! SUPPORT. Memory: a fetch after a store, and every operation keeps the canonical form (20_memory.md R73). -/

namespace Sys2Proof.Machine

theorem lookupCell_insertCell_same (cells : List (Nat × Word)) (a : Nat) (v : Word) :
    lookupCell (insertCell cells a v) a = some v := by
  induction cells with
  | nil => simp [insertCell, lookupCell]
  | cons c rest ih =>
    obtain ⟨k, u⟩ := c
    unfold insertCell
    split_ifs with h1 h2
    · simp [lookupCell]
    · simp [lookupCell]
    · simp [lookupCell, Ne.symm h2, ih]

theorem lookupCell_insertCell_ne (cells : List (Nat × Word)) (a b : Nat) (v : Word) (h : b ≠ a) :
    lookupCell (insertCell cells a v) b = lookupCell cells b := by
  induction cells with
  | nil => simp [insertCell, lookupCell, h.symm]
  | cons c rest ih =>
    obtain ⟨k, u⟩ := c
    unfold insertCell
    split_ifs with h1 h2
    · simp [lookupCell, h.symm]
    · subst h2; simp [lookupCell, h.symm]
    · simp [lookupCell, ih]

/-- A fetch of the stored address gives the stored Word (20_memory.md R73). -/
theorem fetch_store_same (m : Memory) (a v : Word) : (m.store a v).fetch a = some v :=
  lookupCell_insertCell_same m.cells a.toNat v

/-- A store changes no other address (20_memory.md R73). -/
theorem fetch_store_ne (m : Memory) (a b v : Word) (h : b ≠ a) : (m.store a v).fetch b = m.fetch b :=
  lookupCell_insertCell_ne m.cells a.toNat b.toNat v fun e => h (BitVec.eq_of_toNat_eq e)

theorem risingFrom_weaken (cells : List (Nat × Word)) (b c : Nat) (hbc : b ≤ c) (h : risingFrom c cells = true) :
    risingFrom b cells = true := by
  cases cells with
  | nil => rfl
  | cons x rest =>
    simp only [risingFrom, Bool.and_eq_true, decide_eq_true_eq] at h ⊢
    exact ⟨⟨hbc.trans h.1.1, h.1.2⟩, h.2⟩

theorem risingFrom_insertCell (cells : List (Nat × Word)) (b a : Nat) (v : Word) (hb : b ≤ a) (ha : a < 2 ^ 32)
    (h : risingFrom b cells = true) : risingFrom b (insertCell cells a v) = true := by
  induction cells generalizing b with
  | nil =>
    simp only [insertCell, risingFrom, Bool.and_eq_true, decide_eq_true_eq]
    exact ⟨⟨hb, ha⟩, trivial⟩
  | cons c rest ih =>
    obtain ⟨k, u⟩ := c
    simp only [risingFrom, Bool.and_eq_true, decide_eq_true_eq] at h
    obtain ⟨⟨hbk, hk⟩, hrest⟩ := h
    unfold insertCell
    split_ifs with h1 h2
    · simp only [risingFrom, Bool.and_eq_true, decide_eq_true_eq]
      exact ⟨⟨hb, ha⟩, ⟨h1, hk⟩, hrest⟩
    · subst h2
      simp only [risingFrom, Bool.and_eq_true, decide_eq_true_eq]
      exact ⟨⟨hb, ha⟩, hrest⟩
    · simp only [risingFrom, Bool.and_eq_true, decide_eq_true_eq]
      exact ⟨⟨hbk, hk⟩, ih (k + 1) (by omega) hrest⟩

/-- A store keeps the canonical form. -/
theorem store_wf (m : Memory) (a v : Word) (h : m.wf = true) : (m.store a v).wf = true :=
  risingFrom_insertCell m.cells 0 a.toNat v (Nat.zero_le _) a.isLt h

/-- The initial memory of a launch has the canonical form. -/
theorem imageMemory_wf (image : List (Word × Word)) : (imageMemory image).wf = true := by
  suffices H : ∀ (l : List (Word × Word)) (m : Memory), m.wf = true →
      (l.foldl (fun m aw => m.store aw.1 aw.2) m).wf = true from H image ⟨[]⟩ rfl
  intro l
  induction l with
  | nil => exact fun m h => h
  | cons x rest ih => exact fun m h => ih _ (store_wf m x.1 x.2 h)

/-- The memory of `State.reset` has the canonical form. -/
theorem reset_mem_wf : State.reset.mem.wf = true := rfl

/-- Below the bound of a rising list nothing is listed. -/
theorem lookupCell_below (cells : List (Nat × Word)) (b a : Nat) (h : risingFrom b cells = true) (hab : a < b) :
    lookupCell cells a = none := by
  induction cells generalizing b with
  | nil => rfl
  | cons c rest ih =>
    obtain ⟨k, u⟩ := c
    simp only [risingFrom, Bool.and_eq_true, decide_eq_true_eq] at h
    have hne : k ≠ a := by omega
    simp only [lookupCell, hne, if_false]
    exact ih (k + 1) h.2 (by omega)

/-- Equal memories are equal data: rising lists that answer every lookup alike are the same list. -/
theorem rising_ext (xs ys : List (Nat × Word)) (b : Nat) (hx : risingFrom b xs = true) (hy : risingFrom b ys = true)
    (h : ∀ a, lookupCell xs a = lookupCell ys a) : xs = ys := by
  induction xs generalizing ys b with
  | nil =>
    cases ys with
    | nil => rfl
    | cons y ys => have := h y.1; simp [lookupCell] at this
  | cons x xs ih =>
    obtain ⟨k, u⟩ := x
    cases ys with
    | nil => have := h k; simp [lookupCell] at this
    | cons y ys =>
      obtain ⟨l, w⟩ := y
      simp only [risingFrom, Bool.and_eq_true, decide_eq_true_eq] at hx hy
      have hkl : k = l := by
        rcases lt_trichotomy k l with hlt | heq | hgt
        · have hk := h k
          have : lookupCell ys k = none := lookupCell_below ys (l + 1) k hy.2 (by omega)
          simp [lookupCell, hlt.ne', this] at hk
        · exact heq
        · have hl := h l
          have : lookupCell xs l = none := lookupCell_below xs (k + 1) l hx.2 (by omega)
          simp [lookupCell, hgt.ne', this] at hl
      subst hkl
      have huw : u = w := by have := h k; simpa [lookupCell] using this
      subst huw
      rw [ih ys (k + 1) hx.2 hy.2]
      intro a
      by_cases hak : k = a
      · subst hak
        rw [lookupCell_below xs (k + 1) k hx.2 (by omega), lookupCell_below ys (k + 1) k hy.2 (by omega)]
      · have := h a; simpa [lookupCell, hak] using this

end Sys2Proof.Machine
end

