-- ==== Sys2Proof/Laws/PerInstr.lean ====
section
/-! SUPPORT. The per-instruction family `Fields`: under every CATALOG, the operand fields read back from an instruction's word
are the instruction's own (30_encoding.md R100 to R102, R130 to R132). -/

namespace Sys2Proof.Laws.Fields

/-- The instruction's mnemonic with the operand fields of its word is the instruction itself. -/
def Statement (i : Instr) : Prop := ∀ c : Catalog, instrOf i.mnemonic (encode c i) = i

end Sys2Proof.Laws.Fields

namespace Sys2Proof.Laws

theorem rFields_rWord (op fn : BitVec 6) (f : RFields) : rFields (rWord op f fn) = f := by
  obtain ⟨rs, rt, rd, sh⟩ := f
  simp only [rFields, rWord, RFields.mk.injEq]
  refine ⟨?_, ?_, ?_, ?_⟩ <;>
    · ext k hk
      simp only [BitVec.getElem_extractLsb', BitVec.getLsbD_append]
      interval_cases k <;> simp [BitVec.getLsbD_eq_getElem]

theorem iFields_iWord (op : BitVec 6) (f : IFields) : iFields (iWord op f) = f := by
  obtain ⟨rs, rt, im⟩ := f
  simp only [iFields, iWord, IFields.mk.injEq]
  refine ⟨?_, ?_, ?_⟩ <;>
    · ext k hk
      simp only [BitVec.getElem_extractLsb', BitVec.getLsbD_append]
      interval_cases k <;> simp [BitVec.getLsbD_eq_getElem]

theorem jFields_jWord (op : BitVec 6) (f : JFields) : jFields (jWord op f) = f := by
  obtain ⟨t⟩ := f
  simp only [jFields, jWord, JFields.mk.injEq]
  ext k hk
  simp only [BitVec.getElem_extractLsb', BitVec.getLsbD_append]
  interval_cases k <;> simp [BitVec.getLsbD_eq_getElem]

end Sys2Proof.Laws

namespace Sys2Proof.Laws.Fields

theorem sll (f : RFields) : Statement (.sll f) := fun _ => congrArg Instr.sll (rFields_rWord _ _ f)
theorem srl (f : RFields) : Statement (.srl f) := fun _ => congrArg Instr.srl (rFields_rWord _ _ f)
theorem mfhi (f : RFields) : Statement (.mfhi f) := fun _ => congrArg Instr.mfhi (rFields_rWord _ _ f)
theorem mflo (f : RFields) : Statement (.mflo f) := fun _ => congrArg Instr.mflo (rFields_rWord _ _ f)
theorem mult (f : RFields) : Statement (.mult f) := fun _ => congrArg Instr.mult (rFields_rWord _ _ f)
theorem multu (f : RFields) : Statement (.multu f) := fun _ => congrArg Instr.multu (rFields_rWord _ _ f)
theorem div (f : RFields) : Statement (.div f) := fun _ => congrArg Instr.div (rFields_rWord _ _ f)
theorem add (f : RFields) : Statement (.add f) := fun _ => congrArg Instr.add (rFields_rWord _ _ f)
theorem addu (f : RFields) : Statement (.addu f) := fun _ => congrArg Instr.addu (rFields_rWord _ _ f)
theorem sub (f : RFields) : Statement (.sub f) := fun _ => congrArg Instr.sub (rFields_rWord _ _ f)
theorem subu (f : RFields) : Statement (.subu f) := fun _ => congrArg Instr.subu (rFields_rWord _ _ f)
theorem and (f : RFields) : Statement (.and f) := fun _ => congrArg Instr.and (rFields_rWord _ _ f)
theorem or (f : RFields) : Statement (.or f) := fun _ => congrArg Instr.or (rFields_rWord _ _ f)
theorem j (f : JFields) : Statement (.j f) := fun _ => congrArg Instr.j (jFields_jWord _ f)
theorem addi (f : IFields) : Statement (.addi f) := fun _ => congrArg Instr.addi (iFields_iWord _ f)
theorem addiu (f : IFields) : Statement (.addiu f) := fun _ => congrArg Instr.addiu (iFields_iWord _ f)
theorem andi (f : IFields) : Statement (.andi f) := fun _ => congrArg Instr.andi (iFields_iWord _ f)
theorem ori (f : IFields) : Statement (.ori f) := fun _ => congrArg Instr.ori (iFields_iWord _ f)
theorem lui (f : IFields) : Statement (.lui f) := fun _ => congrArg Instr.lui (iFields_iWord _ f)
theorem lw (f : IFields) : Statement (.lw f) := fun _ => congrArg Instr.lw (iFields_iWord _ f)
theorem sw (f : IFields) : Statement (.sw f) := fun _ => congrArg Instr.sw (iFields_iWord _ f)

end Sys2Proof.Laws.Fields
end

