-- ==== Sys2Proof/Laws/Word.lean ====
section
/-! SUPPORT. The integer forms of the meanings as bit-vector operations (00_scope.md §5, R13). -/

namespace Sys2Proof.Machine

theorem w32_natCast (n : Nat) : w32 (n : Int) = BitVec.ofNat 32 n := by simp [w32]

theorem w32_toInt (v : Word) : w32 v.toInt = v := BitVec.ofInt_toInt

theorem w32_toNat (v : Word) : w32 (v.toNat : Int) = v := by simp [w32_natCast]

theorem w32_add (a b : Int) : w32 (a + b) = w32 a + w32 b := BitVec.ofInt_add a b

theorem w32_sub (a b : Int) : w32 (a - b) = w32 a - w32 b := by
  rw [sub_eq_add_neg, w32_add, BitVec.sub_eq_add_neg]
  congr 1
  exact BitVec.ofInt_neg

/-- The pc's increment is an addition modulo 2^32 (10_state.md R38). -/
theorem nextPc_eq (pc : Word) : nextPc pc = pc + 4 := by
  unfold nextPc
  rw [w32_add, w32_toNat]
  rfl

/-- The effective address is an addition modulo 2^32 (45_load_store.md R282). -/
theorem effectiveAddress_eq (s : State) (f : IFields) :
    effectiveAddress s f = s.readReg f.rs + signedImm f := by
  unfold effectiveAddress toSigned
  rw [w32_add, w32_toNat, w32_toInt]

end Sys2Proof.Machine
end

