-- ==== Sys2Proof/Tests/Slice0.lean ====
section
/-! SUPPORT. The model's own tests. Every expected result is taken from the spec (95_test_vectors.md, or the rule each comment
names), and the witnesses show that the hypotheses of the statements can be met. -/

namespace Sys2Proof.Tests

open Sys2Proof.Machine Sys2Proof.Statements

/-! Small states. -/

/-- A Ready state at pc 0x100 with given registers and memory, default parameters, everything else as after reset. -/
def stateWith (regs : List (Fin 32 × Word)) (cells : List (Nat × Word)) : State :=
  { State.reset with
    pc := 0x100
    regs := regs.foldl (fun v r => v.set r.1 r.2) State.reset.regs
    mem := ⟨cells⟩ }

/-- The state after running one word at 0x100, with given registers and data memory. -/
def afterWord (w : Word) (regs : List (Fin 32 × Word)) (cells : List (Nat × Word) := []) : State :=
  applyStep ((stateWith regs cells).withFetchWord 32 w.toNat)

/-- The next state of an answer, if it is one. -/
def nextOf : Result → Option State
  | .next t => some t
  | .fault _ | .refused _ => none

/-- The refusal of an answer, if it is one. -/
def refusalOf : Result → Option Refusal
  | .refused r => some r
  | .next _ | .fault _ => none

/-- The state `s` with register 0 hard-wired. -/
def discarding (s : State) : State := { s with params := { s.params with zeroWrites := .discarded } }

/-- The state `s` with J unimplemented. -/
def faultingJ (s : State) : State := { s with params := { s.params with jMode := .notImplementedFault } }

/-! Decoding: for each of the 21 instructions, a word written out bit by bit from its layout (30_encoding.md R100 to R102, R112). -/

theorem test_decode_sll : decode Catalog.standard 0b000000_00000_01001_01000_00100_000000 = .ok (.sll ⟨0, 9, 8, 4⟩) := by decide
theorem test_decode_srl : decode Catalog.standard 0b000000_00000_01000_01001_11111_000010 = .ok (.srl ⟨0, 8, 9, 31⟩) := by decide
theorem test_decode_mfhi : decode Catalog.standard 0b000000_00000_00000_01010_00000_010000 = .ok (.mfhi ⟨0, 0, 10, 0⟩) := by decide
theorem test_decode_mflo : decode Catalog.standard 0b000000_00000_00000_01011_00000_010010 = .ok (.mflo ⟨0, 0, 11, 0⟩) := by decide
theorem test_decode_mult : decode Catalog.standard 0b000000_01000_01001_00000_00000_011000 = .ok (.mult ⟨8, 9, 0, 0⟩) := by decide
theorem test_decode_multu : decode Catalog.standard 0b000000_01000_01001_00000_00000_011001 = .ok (.multu ⟨8, 9, 0, 0⟩) := by decide
theorem test_decode_div : decode Catalog.standard 0b000000_01000_00000_00000_00000_011010 = .ok (.div ⟨8, 0, 0, 0⟩) := by decide
theorem test_decode_add : decode Catalog.standard 0b000000_01001_01010_01000_00000_100000 = .ok (.add ⟨9, 10, 8, 0⟩) := by decide
theorem test_decode_addu : decode Catalog.standard 0b000000_01001_01010_01000_00000_100001 = .ok (.addu ⟨9, 10, 8, 0⟩) := by decide
theorem test_decode_sub : decode Catalog.standard 0b000000_01001_01010_01000_00000_100010 = .ok (.sub ⟨9, 10, 8, 0⟩) := by decide
theorem test_decode_subu : decode Catalog.standard 0b000000_01001_01010_01000_00000_100011 = .ok (.subu ⟨9, 10, 8, 0⟩) := by decide
theorem test_decode_and : decode Catalog.standard 0b000000_01001_01010_01011_00000_100100 = .ok (.and ⟨9, 10, 11, 0⟩) := by decide
theorem test_decode_or : decode Catalog.standard 0b000000_01001_01010_01011_00000_100101 = .ok (.or ⟨9, 10, 11, 0⟩) := by decide
theorem test_decode_j : decode Catalog.standard 0b000010_00000000000000000100000000 = .ok (.j ⟨256⟩) := by decide
theorem test_decode_addi : decode Catalog.standard 0b001000_01000_01001_1111111111111111 = .ok (.addi ⟨8, 9, 0xFFFF⟩) := by decide
theorem test_decode_addiu : decode Catalog.standard 0b001001_01000_01001_0000000000000001 = .ok (.addiu ⟨8, 9, 1⟩) := by decide
theorem test_decode_andi : decode Catalog.standard 0b001100_01000_01001_0000000011111111 = .ok (.andi ⟨8, 9, 0xFF⟩) := by decide
theorem test_decode_ori : decode Catalog.standard 0b001101_01000_01001_1000000000000000 = .ok (.ori ⟨8, 9, 0x8000⟩) := by decide
theorem test_decode_lui : decode Catalog.standard 0b001111_00000_01000_0001001000110100 = .ok (.lui ⟨0, 8, 0x1234⟩) := by decide
theorem test_decode_lw : decode Catalog.standard 0b100011_10000_01000_0000000000001000 = .ok (.lw ⟨16, 8, 8⟩) := by decide
theorem test_decode_sw : decode Catalog.standard 0b101011_11101_01001_1111111111111100 = .ok (.sw ⟨29, 9, 0xFFFC⟩) := by decide

/-- The illegal words of 95_test_vectors.md B3. -/
theorem test_decode_rejects :
    decode Catalog.standard 0x00000003 = .error (.unassignedFunct 3) ∧
    decode Catalog.standard 0x00000008 = .error (.unassignedFunct 8) ∧
    decode Catalog.standard 0x10000000 = .error (.unassignedOpcode 4) ∧
    decode Catalog.standard 0x0C000000 = .error (.unassignedOpcode 3) := by decide

/-- The opcode table's numbering is the Word's own (20_memory.md R75). -/
theorem test_decodeTableWord : decodeTableWord 32 0x012A4020 = some (.add ⟨9, 10, 8, 0⟩) ∧ decodeTableWord 32 0xFC000000 = none := by
  decide

/-- 30_encoding.md R122, R124 and 95_test_vectors.md B2, as words. -/
theorem test_encode :
    encode Catalog.standard (.addi ⟨8, 8, 0x8000⟩) = 0x21088000 ∧ encode Catalog.standard (.j ⟨0x3FFFFFF⟩) = 0x0BFFFFFF ∧
    encode Catalog.standard (.sw ⟨29, 9, 0xFFFC⟩) = 0xAFA9FFFC := by decide

/-- The engines' own outputs for `0x8E08FFFC` and `0x00094100` (95_test_vectors.md B3, E6). -/
theorem test_disassemble :
    disassembleI 0x8E08FFFC = ⟨0x23, 16, 8, 0xFFFFFFFC⟩ ∧ disassembleR 0x00094100 = ⟨0, 0, 9, 8, 4, 0⟩ ∧
    disassembleJ 0x0BFFFFFF = ⟨2, 0x3FFFFFF⟩ := by decide

/-! WellFormed refuses an ill-formed term for each of its checks (30_encoding.md R121, R123). -/

theorem test_wellFormed_shift_rs : Instr.wellFormed (.sll ⟨1, 9, 8, 4⟩) = false ∧ Instr.wellFormed (.srl ⟨1, 9, 8, 4⟩) = false := by decide
theorem test_wellFormed_move_rs : Instr.wellFormed (.mfhi ⟨1, 0, 8, 0⟩) = false := by decide
theorem test_wellFormed_move_rt : Instr.wellFormed (.mflo ⟨0, 1, 8, 0⟩) = false := by decide
theorem test_wellFormed_move_shamt : Instr.wellFormed (.mfhi ⟨0, 0, 8, 1⟩) = false := by decide
theorem test_wellFormed_mulDiv_rd : Instr.wellFormed (.mult ⟨8, 9, 1, 0⟩) = false ∧ Instr.wellFormed (.div ⟨8, 9, 1, 0⟩) = false := by decide
theorem test_wellFormed_mulDiv_shamt : Instr.wellFormed (.multu ⟨8, 9, 0, 1⟩) = false := by decide
theorem test_wellFormed_alu_shamt : Instr.wellFormed (.add ⟨9, 10, 8, 3⟩) = false ∧ Instr.wellFormed (.or ⟨9, 10, 8, 1⟩) = false := by decide
theorem test_wellFormed_lui_rs : Instr.wellFormed (.lui ⟨1, 8, 0x1234⟩) = false := by decide
theorem test_wellFormed_accepts :
    Instr.wellFormed (.sll ⟨0, 9, 8, 4⟩) = true ∧ Instr.wellFormed (.add ⟨9, 10, 8, 0⟩) = true ∧
    Instr.wellFormed (.lui ⟨0, 8, 0xFFFF⟩) = true ∧ Instr.wellFormed (.j ⟨256⟩) = true := by decide

/-! Bit-field primitives (95_test_vectors.md E1, E2, B1). -/

theorem test_getBits : getBits 0x8E080008 31 26 = .ok 0x23 ∧ getBits 0xDEADBEEF 31 0 = .ok 0xDEADBEEF ∧
    getBits 0 3 5 = .error .invalidRange ∧ getBits 0 32 0 = .error .invalidRange := by decide
theorem test_setBits : setBits 0 0x3F 31 26 = .ok 0xFC000000 ∧ setBits 0 64 31 26 = .error .fieldOverflow ∧
    setBits 0xFFFFFFFF 0 15 0 = .ok 0xFFFF0000 := by decide
theorem test_signed_readings : toSigned 0xFFFFFFFF = -1 ∧ toSigned 0x80000000 = -2147483648 ∧ toUnsigned (-1) = 4294967295 ∧
    asSigned 0x8000 16 = -32768 ∧ asSigned 0x7FFF 16 = 32767 ∧ asUnsigned 0x12345 16 = 0x2345 ∧ asUnsigned (-5) 4 = 11 := by decide
theorem test_overflow_predicates : detectSignedOverflow (2 ^ 31) = true ∧ detectSignedOverflow (-2 ^ 31) = false ∧
    detectSignedOverflow (-2 ^ 31 - 1) = true ∧ detectUnsignedOverflow (2 ^ 32) = true ∧ detectUnsignedOverflow (-1) = true := by decide

/-! One step of each instruction (95_test_vectors.md Part A and B4 to B9). -/

theorem test_sll : (afterWord 0x00094100 [(9, 0x0000000F)]).readReg 8 = 0x000000F0 ∧
    (afterWord 0x000947C0 [(9, 0x00000003)]).readReg 8 = 0x80000000 := by decide
theorem test_srl : (afterWord 0x00094042 [(9, 0x80000000)]).readReg 8 = 0x40000000 ∧
    (afterWord 0x00084FC2 [(8, 0x80000000)]).readReg 9 = 0x00000001 := by decide
theorem test_mfhi : (applyStep ({ stateWith [] [] with hi := 0xFFFFFFFF }.withFetchWord 32 0x00005010)).readReg 10 = 0xFFFFFFFF := by decide
theorem test_mflo_zero :
    (applyStep ({ stateWith [] [] with lo := 7 }.withFetchWord 32 0x00000012)).readReg 0 = 7 ∧
    (applyStep ((discarding { stateWith [] [] with lo := 7 }).withFetchWord 32 0x00000012)).readReg 0 = 0 := by decide
theorem test_mult : (fun t : State => (t.hi, t.lo)) (afterWord 0x01090018 [(8, 0x12345678), (9, 0x9ABCDEF0)]) = (0xF8CC93D6, 0x242D2080) := by decide
theorem test_mult_square : (fun t : State => (t.hi, t.lo)) (afterWord 0x01080018 [(8, 0xFFFFFFFF)]) = (0x00000000, 0x00000001) := by decide
theorem test_multu : (fun t : State => (t.hi, t.lo)) (afterWord 0x01090019 [(8, 0x12345678), (9, 0x9ABCDEF0)]) = (0x0B00EA4E, 0x242D2080) := by decide
theorem test_multu_square : (fun t : State => (t.hi, t.lo)) (afterWord 0x01080019 [(8, 0xFFFFFFFF)]) = (0xFFFFFFFE, 0x00000001) := by decide
/-- -7 by 2 (P3) and the zero divisor (E4). -/
theorem test_div : (fun t : State => (t.hi, t.lo)) (afterWord 0x0109001A [(8, 0xFFFFFFF9), (9, 2)]) = (0xFFFFFFFF, 0xFFFFFFFD) ∧
    (fun t : State => (t.hi, t.lo, t.pc)) (afterWord 0x0100001A [(8, 5)]) = (0, 0, 0x104) := by decide
/-- -2^31 by -1, the decision D7 (41_muldiv_hilo.md R215). -/
theorem test_div_min : (fun t : State => (t.hi, t.lo)) (afterWord 0x0109001A [(8, 0x80000000), (9, 0xFFFFFFFF)]) = (0, 0x80000000) := by decide
theorem test_add : (fun t : State => (t.readReg 8, t.pc)) (afterWord 0x012A4020 [(9, 5), (10, 0xFFFFFFFD)]) = (2, 0x104) := by decide
theorem test_add_overflow : (fun t : State => (t.readReg 8, t.pc, t.status)) (afterWord 0x012A4020 [(9, 0x7FFFFFFF), (10, 1)]) =
    (0, 0x100, .faulted .integerOverflow 0x100 0x012A4020) := by decide
theorem test_addu : (fun t : State => (t.readReg 8, t.pc, t.status)) (afterWord 0x012A4021 [(9, 0x7FFFFFFF), (10, 1)]) =
    (0x80000000, 0x104, .ready) := by decide
theorem test_sub : (afterWord 0x012A4022 [(9, 0x80000000), (10, 0xFFFFFFFF)]).readReg 8 = 0x80000001 := by decide
theorem test_sub_overflow : (afterWord 0x012A4022 [(9, 0), (10, 0x80000000)]).status = .faulted .integerOverflow 0x100 0x012A4022 := by decide
theorem test_subu : (afterWord 0x012A4023 [(9, 0), (10, 0x80000000)]).readReg 8 = 0x80000000 := by decide
theorem test_and : (afterWord 0x012A5824 [(9, 0xF0F0F0F0), (10, 0xFF00FF00)]).readReg 11 = 0xF000F000 := by decide
theorem test_or : (afterWord 0x012A5825 [(9, 0xF0F0F0F0), (10, 0xFF00FF00)]).readReg 11 = 0xFFF0FFF0 := by decide
theorem test_j : (fun t : State => (t.pc, t.notices)) (applyStep ({ stateWith [] [] with pc := 0xFFFFFFFC }.withFetchWord 32 0x08000000)) =
    (0x00000000, [0xFFFFFFFC]) := by decide
theorem test_j_fault : (fun t : State => (t.pc, t.status)) (applyStep ((faultingJ { stateWith [] [] with pc := 0x10 }).withFetchWord 32 0x08000100)) =
    (0x10, .faulted .notImplemented 0x10 0x08000100) := by decide
theorem test_addi : (afterWord 0x21097FFF [(8, 5)]).readReg 9 = 0x00008004 := by decide
theorem test_addi_overflow : (fun t : State => (t.readReg 9, t.status)) (afterWord 0x2109FFFF [(8, 0x80000000)]) =
    (0, .faulted .integerOverflow 0x100 0x2109FFFF) := by decide
theorem test_addiu : (afterWord 0x2509FFFF [(8, 0)]).readReg 9 = 0xFFFFFFFF ∧
    (afterWord 0x25090001 [(8, 0x7FFFFFFF)]).readReg 9 = 0x80000000 := by decide
theorem test_andi : (afterWord 0x3109FFFF [(8, 0x12345678)]).readReg 9 = 0x00005678 := by decide
theorem test_ori : (afterWord 0x35098000 [(8, 0)]).readReg 9 = 0x00008000 ∧
    (afterWord 0x3509FFFF [(8, 0x12340000)]).readReg 9 = 0x1234FFFF := by decide
theorem test_lui : (afterWord 0x3C098000 [(9, 7)]).readReg 9 = 0x80000000 := by decide
/-- The address wraps (D6), and the base is read before the write. -/
theorem test_lw : (afterWord 0x8D090008 [(8, 0xFFFFFFFC)] [(4, 0x11)]).readReg 9 = 0x11 ∧
    (afterWord 0x8D080000 [(8, 0x2000)] [(0x2000, 0x77)]).readReg 8 = 0x77 := by decide
/-- Only `Mem(0x2000)` is there, and the load of 0x2001 misses: no rounding to a multiple of 4 (D29). -/
theorem test_lw_miss : (fun t : State => (t.pc, t.readReg 10, t.status)) (afterWord 0x8D0A0001 [(8, 0x2000)] [(0x2000, 1)]) =
    (0x100, 0, .faulted .memoryAccessError 0x100 0x2001) := by decide
theorem test_sw : (afterWord 0xAFA9FFFC [(29, 0x2000), (9, 0x2A)]).mem = ⟨[(0x100, 0xAFA9FFFC), (0x1FFC, 0x2A)]⟩ := by decide
/-- The exact key 0x2001 beside 0x2000 (D29). -/
theorem test_sw_exact_key : (afterWord 0xAD090001 [(8, 0x2000), (9, 0x99)] [(0x2000, 1)]).mem =
    ⟨[(0x100, 0xAD090001), (0x2000, 1), (0x2001, 0x99)]⟩ := by decide
/-- Register 0 as destination, under both settings (B6). -/
theorem test_zero_register :
    (afterWord 0x012A0020 [(9, 1), (10, 2)]).readReg 0 = 3 ∧
    (applyStep ((discarding (stateWith [(9, 1), (10, 2)] [])).withFetchWord 32 0x012A0020)).readReg 0 = 0 := by decide

/-! The step machine, reset, launch and run control (95_test_vectors.md B3, B10). -/

theorem test_fetch_miss : (applyStep { stateWith [] [] with pc := 0x40 }) =
    { stateWith [] [] with pc := 0x40, status := .faulted .fetchMiss 0x40 0x40 } := by decide
theorem test_unknown_instruction : (afterWord 0x0000001B []).status = .faulted .unknownInstruction 0x100 0x0000001B := by decide
/-- A Faulted core runs nothing, though a good word stands at its pc. -/
theorem test_sticky : (fun s : State => applyStep s = s)
    { stateWith [] [(0x100, 0x3C098000)] with status := .faulted .fetchMiss 0x100 0x100 } := by decide
theorem test_reset_pc : applyReset { stateWith [(9, 5)] [] with status := .faulted .fetchMiss 0x100 0x100, hi := 3 } = State.reset := by decide
/-- `Reset` with RESET_PC = 0x400. -/
theorem test_launch : (nextOf (launch ⟨{ Params.standard with resetPc := 0x400 }, atEndPc 0, [(0x400, 7)]⟩)).map (fun t => (t.pc, t.mem.fetch 0x400)) =
    some (0x400, some 7) := by decide
/-- RESET_PC = 0x402, and two descriptors with one code, which breaks 30_encoding.md R111. -/
theorem test_launch_refused : refusalOf (launch ⟨{ Params.standard with resetPc := 0x402 }, atEndPc 0, []⟩) = some .misalignedResetPc ∧
    refusalOf (launch ⟨{ Params.standard with catalog := { Catalog.standard with srl := 0x00 } }, atEndPc 0, []⟩) = some .invalidCatalog := by decide
/-- The launch's END stops the Run after one `lui`, and a program past the top of the address space goes on at 0 (log entry 15). -/
theorem test_launch_end : (fun t : State => (t.pc, t.readReg 9))
      (applyControl (Launch.standard 0x104 []) (.run [⟨false, false⟩, ⟨false, false⟩]) (stateWith [] [(0x100, 0x3C098000)])) =
      (0x104, 0x80000000) ∧
    placeWords 0xFFFFFFFC [7, 8] = [(0xFFFFFFFC, 7), (0, 8)] := by decide
/-- END already true stops at once, with no step. -/
theorem test_run_ended : runWith (atEndPc 0x100) [⟨false, false⟩] (stateWith [] []) = (.ended, stateWith [] []) := by decide
/-- Both Reset and Halt pending: Reset is applied. -/
theorem test_reset_wins : runWith (atEndPc 0) [⟨true, true⟩] (stateWith [(9, 5)] []) = (.wasReset, State.reset) := by decide
/-- Two boundaries: one `lui`, then END. -/
theorem test_run_two : (fun r : RunStop × State => (r.1, r.2.readReg 9))
    (runWith (atEndPc 0x104) [⟨false, false⟩, ⟨false, false⟩] (stateWith [] [(0x100, 0x3C098000)])) = (.ended, 0x80000000) := by decide
theorem test_errorCode : [ErrorKind.integerOverflow, .memoryAccessError, .unknownInstruction, .fetchMiss, .notImplemented].map errorCode =
    [1, 2, 3, 4, 5] := by decide
/-- A serialized Word, in the two readings of the open IMAGE_BYTE_ORDER (20_memory.md R76), and a leftover byte. -/
theorem test_image : imageWords .bigEndian [0x3C, 0x08, 0x12, 0x34] = some [0x3C081234] ∧
    imageWords .littleEndian [0x34, 0x12, 0x08, 0x3C] = some [0x3C081234] ∧ imageWords .bigEndian [0] = none ∧
    (imageMemory (placeWords 0 [7, 8])).cells = [(0, 7), (4, 8)] := by decide

/-! The assembler and the canonical text (95_test_vectors.md B2). -/

/-- A line's word and canonical text. -/
def line (s : String) : Except AsmError (Word × Text) := (assembleLine Catalog.standard s.toList).mapError AsmFailure.error

/-- The expected word and text of a line. -/
def good (w : Word) (s : String) : Except AsmError (Word × Text) := .ok (w, s.toList)

theorem test_asm_r : line "ADD $8, $t1 $t2" = good 0x012A4020 "add $8 $9 $10" ∧ line "mfhi $t2" = good 0x00005010 "mfhi $10" ∧
    line "sll $t0 $t1 31" = good 0x000947C0 "sll $8 $9 31" ∧ line "mult $t0 $t1" = good 0x01090018 "mult $8 $9" := by decide
theorem test_asm_i : line "addi $t0 $t0 65535" = good 0x2108FFFF "addi $8 $8 -1" ∧
    line "ori $t0 $t0 0xFFFF" = good 0x3508FFFF "ori $8 $8 -1" ∧ line "lui $t0 0x1234" = good 0x3C081234 "lui $8 4660" ∧
    line "addi $t0 $t0 -32768" = good 0x21088000 "addi $8 $8 -32768" := by decide
theorem test_asm_memory : line "lw $t0 8(s0)" = good 0x8E080008 "lw $8 8($16)" ∧ line "sw $t1 -4($sp)" = good 0xAFA9FFFC "sw $9 -4($29)" := by decide
theorem test_asm_j : line "j 0x10000003" = good 0x08000000 "j 0" ∧ line "j 0xFFFFFFFC" = good 0x0BFFFFFF "j 268435452" := by decide
theorem test_asm_invalid_operands : line "add $T0 $t1 $t2" = .error .invalidOperands ∧ line "add $t0 $t1" = .error .invalidOperands ∧
    line "add $t0 $t1 $t2 $t3" = .error .invalidOperands ∧ line "add $t0 $t1 5" = .error .invalidOperands ∧
    line "lw $t0 ($s0)" = .error .invalidOperands ∧ line "lw $t0 8($bad)" = .error .invalidOperands ∧ line "j here" = .error .invalidOperands := by decide
theorem test_asm_range : line "sll $t0 $t1 32" = .error .fieldOverflow ∧ line "sll $t0 $t1 -1" = .error .fieldOverflow ∧
    line "addi $t0 $t0 65536" = .error .fieldOverflow ∧ line "addi $t0 $t0 -32769" = .error .fieldOverflow ∧
    line "j 4294967296" = .error .fieldOverflow := by decide
theorem test_asm_address : line "lw $t0 8($s0" = .error .invalidAddressSyntax ∧ line "LW $t0 8 $s0" = .error .invalidAddressSyntax := by decide
theorem test_asm_unknown : line "frob $t0" = .error .unknownInstruction ∧ line "nop" = .error .unknownInstruction := by decide

/-! Witnesses: for each statement with hypotheses, concrete data that meets them, clause by clause and at the ends of ranges. The
clauses of 00_scope.md to 70_reset_and_hazards.md that two statements share have one witness. -/

/-- DecodeOfEncode, EncodeOfDecode, DispatchSelectsTheOneDescriptor, PlacedWordIsRun: a valid CATALOG, one that is not the default,
and a word that decodes. -/
theorem witness_valid_catalog : Catalog.standard.valid = true ∧
    { Catalog.standard with lw := 0x3F, sll := 0x3F }.valid = true ∧
    decode Catalog.standard 0x012A40E0 = .ok (.add ⟨9, 10, 8, 3⟩) := by decide

/-- IllegalWordsExactly, StepRunsTheDecodedInstruction, ErrorsComeInOrder: a Ready state at a word that is no instruction. -/
theorem witness_illegal_word :
    (stateWith [] [(0x100, 0xFC000000)]).status = .ready ∧ (stateWith [] [(0x100, 0xFC000000)]).params.catalog = Catalog.standard ∧
    (stateWith [] [(0x100, 0xFC000000)]).mem.fetch (stateWith [] [(0x100, 0xFC000000)]).pc = some 0xFC000000 ∧
    dispatch Catalog.standard 0xFC000000 = none ∧ ∀ i, decode Catalog.standard 0xFC000000 ≠ .ok i :=
  ⟨by decide, by decide, by decide, by decide, fun i h => by
    have e : decode Catalog.standard 0xFC000000 = .error (.unassignedOpcode 0x3F) := by decide
    rw [e] at h; cases h⟩

/-- EncodersRoundTrip: an R-format mnemonic and its parsed operands with a role missing, an I-format one at both ends of the immediate
and above 32767, a J-format one at both ends of the address. -/
theorem witness_encoders_round_trip :
    Catalog.standard.valid = true ∧ Mnemonic.sll.format = .r ∧ OperandRole.rs ∉ Mnemonic.sll.operandSyntax ∧
    parseOperands Mnemonic.sll.operandSyntax ["$t0".toList, "$t1".toList, "4".toList] noOperands = .ok ⟨0, 9, 8, 4, 0, 0⟩ ∧
    OperandRole.rt ∉ Mnemonic.mfhi.operandSyntax ∧ OperandRole.shamt ∉ Mnemonic.mfhi.operandSyntax ∧
    parseOperands Mnemonic.mfhi.operandSyntax ["$t0".toList] noOperands = .ok ⟨0, 0, 8, 0, 0, 0⟩ ∧
    OperandRole.rd ∉ Mnemonic.mult.operandSyntax ∧ 
    parseOperands Mnemonic.mult.operandSyntax ["$t0".toList, "$t1".toList] noOperands = .ok ⟨8, 9, 0, 0, 0, 0⟩ ∧
    Mnemonic.lw.format = .i ∧ (-32768 : Int) ≤ -32768 ∧ (-32768 : Int) ≤ 65535 ∧ (32767 : Int) < 65535 ∧
    Mnemonic.j.format = .j ∧ (0 : Int) ≤ 2 ^ 32 - 1 ∧ (0 : Int) ≤ 0 := by decide

/-- EncoderSetsFieldByField, ImmediateEncoderPacksOrRefuses, SllShiftsLeft: values at the ends of their ranges, and just outside. -/
theorem witness_encoder_ranges :
    ((0 : Int) ≤ 0 ∧ (0 : Int) ≤ 31) ∧ ((0 : Int) ≤ 31 ∧ (31 : Int) ≤ 31) ∧ ¬((0 : Int) ≤ 32 ∧ (32 : Int) ≤ 31) ∧ (31 : Int) < 32 ∧
    ¬((0 : Int) ≤ -1 ∧ (-1 : Int) ≤ 31) ∧ ((-32768 : Int) ≤ 65535 ∧ (65535 : Int) ≤ 65535) ∧
    ¬((-32768 : Int) ≤ -32769 ∧ (-32769 : Int) ≤ 65535) := by decide

/-- JumpEncoderMasksTheAddress: two addresses with the same bits 27..2, and addresses on either side of the range. -/
theorem witness_jump_encoder : (0x10000003 : Word).extractLsb' 2 26 = (0 : Word).extractLsb' 2 26 ∧
    (-1 : Int) < 0 ∧ (2 ^ 32 - 1 : Int) < 2 ^ 32 := by decide

/-- AssembledWordsAreWellFormed: a line that assembles. -/
theorem witness_assembled : Catalog.standard.valid = true ∧
    assemble Catalog.standard .add ["$t0".toList, "$t1".toList, "$t2".toList] = .ok (0x012A4020, "add $8 $9 $10".toList) := by decide

/-- AssemblerCheckOrder: a first token read and a second one that fails; roles with no token left; tokens with no role left; a full
parse; a numeric token; a register name. -/
theorem witness_check_order :
    Mnemonic.add.operandSyntax = [.rd] ++ .rs :: [.rt] ∧
    parseOperands [.rd] ["$t0".toList] noOperands = .ok ⟨0, 0, 8, 0, 0, 0⟩ ∧
    parseOperand ⟨0, 0, 8, 0, 0, 0⟩ .rs "$bad".toList = .error .invalidOperands ∧
    Mnemonic.add.operandSyntax = [.rd] ++ [.rs, .rt] ∧ [OperandRole.rs, .rt] ≠ [] ∧
    Mnemonic.mfhi.operandSyntax = [.rd] ++ [] ∧ ["$t1".toList] ≠ [] ∧
    parseOperands Mnemonic.mfhi.operandSyntax ["$t0".toList] noOperands = .ok ⟨0, 0, 8, 0, 0, 0⟩ ∧
    parseInt "-0x10".toList = some (-16) ∧ parseRegister "$s8".toList = .ok 30 := by decide

/-- MnemonicLookupFoldsCase: two spellings of one name, and a name that no descriptor has. -/
theorem witness_mnemonics : "SLL".toList.map Char.toLower = "sLl".toList.map Char.toLower ∧
    (∀ m ∈ Mnemonic.all, m.symbol ≠ "frob".toList.map Char.toLower) ∧ ∀ m : Mnemonic, m ∈ Mnemonic.all :=
  ⟨by decide, by decide, fun m => by cases m <;> decide⟩

/-- FieldRoundTrip, SetBitsChangesOneField: the whole word, the top bit alone, a bad range on each side, a value at the end of its
field and one past it. -/
theorem witness_fields :
    ((0 : Int) ≤ 0 ∧ (0 : Int) ≤ 31 ∧ (31 : Int) ≤ 31) ∧ ((0 : Int) ≤ 31 ∧ (31 : Int) ≤ 31) ∧
    ¬((0 : Int) ≤ 5 ∧ (5 : Int) ≤ 3 ∧ (3 : Int) ≤ 31) ∧ ¬((0 : Int) ≤ 0 ∧ (0 : Int) ≤ 32 ∧ (32 : Int) ≤ 31) ∧
    (63 : Int) ≤ 2 ^ (31 - 26 + 1) - 1 ∧ ¬((0 : Int) ≤ 64 ∧ (64 : Int) ≤ 2 ^ (31 - 26 + 1) - 1) ∧ 25 < 32 ∧ 25 < 26 := by decide

/-- NarrowThenSignExtend, SignedReadingByTopBit: both ends at n = 1 and n = 32. -/
theorem witness_signed_ranges :
    (1 ≤ 1 ∧ 1 ≤ 32 ∧ (-2 ^ (1 - 1) : Int) ≤ -1 ∧ (-1 : Int) ≤ 2 ^ (1 - 1) - 1) ∧
    (1 ≤ 32 ∧ 32 ≤ 32 ∧ (-2 ^ (32 - 1) : Int) ≤ 2147483647 ∧ (2147483647 : Int) ≤ 2 ^ (32 - 1) - 1) ∧
    ((-2 ^ 31 : Int) ≤ -2147483648 ∧ (-2147483648 : Int) ≤ 2 ^ 32 - 1) ∧ ((-2 ^ 31 : Int) ≤ 4294967295 ∧ (4294967295 : Int) ≤ 2 ^ 32 - 1) := by
  decide

/-- RegisterWritesAndReads: register indices 1 and 31, register 0 and another, and a state of each setting. -/
theorem witness_registers : (1 : RegIndex) ≠ 0 ∧ (31 : RegIndex) ≠ 0 ∧ State.reset.params.zeroWrites = .kept ∧
    (discarding State.reset).params.zeroWrites = .discarded := by decide

/-- The word has opcode 0 and the funct that the default CATALOG binds to the mnemonic. -/
def hasFunct (w : Word) (m : Mnemonic) : Prop := w.extractLsb' 26 6 = 0 ∧ w.extractLsb' 0 6 = Catalog.standard.code m

/-- The word has the opcode that the default CATALOG binds to the mnemonic. -/
def hasOpcode (w : Word) (m : Mnemonic) : Prop := w.extractLsb' 26 6 = Catalog.standard.code m

/-- EncodedR in SllShiftsLeft, SrlShiftsRightLogically, MfhiCopiesHi, MfloCopiesLo, MultGivesTheSignedProduct,
MultuGivesTheUnsignedProduct, DivTruncates: a valid CATALOG and a word of each, its other fields all ones. -/
theorem witness_encoded_shift_muldiv : Catalog.standard.valid = true ∧
    hasFunct 0x03FFFFC0 .sll ∧ hasFunct 0x03FFFFC2 .srl ∧ hasFunct 0x03FFFFD0 .mfhi ∧
    hasFunct 0x03FFFFD2 .mflo ∧ hasFunct 0x03FFFFD8 .mult ∧ hasFunct 0x03FFFFD9 .multu ∧
    hasFunct 0x03FFFFDA .div := by
  unfold hasFunct; decide

/-- EncodedR in AddAddsOrOverflows, AdduWraps, SubSubtractsOrOverflows, SubuWraps, AndIsBitwise, OrIsBitwise: the same. -/
theorem witness_encoded_alu : Catalog.standard.valid = true ∧
    hasFunct 0x03FFFFE0 .add ∧ hasFunct 0x03FFFFE1 .addu ∧ hasFunct 0x03FFFFE2 .sub ∧
    hasFunct 0x03FFFFE3 .subu ∧ hasFunct 0x03FFFFE4 .and ∧ hasFunct 0x03FFFFE5 .or := by
  unfold hasFunct; decide

/-- The opcode hypothesis of JumpIsAStub, and EncodedI in AddiAddsOrOverflows, AddiuWraps, AndiMasksWithZeroExtension,
OriKeepsTheUpperHalf, LuiLoadsTheUpperHalf, LwLoadsOrMisses, SwStoresOneWord. -/
theorem witness_encoded_opcode : Catalog.standard.valid = true ∧
    hasOpcode 0x0BFFFFFF .j ∧ hasOpcode 0x23FFFFFF .addi ∧ hasOpcode 0x27FFFFFF .addiu ∧
    hasOpcode 0x33FFFFFF .andi ∧ hasOpcode 0x37FFFFFF .ori ∧ hasOpcode 0x3FFFFFFF .lui ∧
    hasOpcode 0x8FFFFFFF .lw ∧ hasOpcode 0xAFFFFFFF .sw := by
  unfold hasOpcode; decide

/-- DivTruncates, DivOfTheLeastByMinusOne: a zero divisor, -2^31 by -1, and pairs of the last case at its ends. -/
theorem witness_div :
    (stateWith [(8, 5)] []).readReg 9 = 0 ∧
    (stateWith [(8, 0x80000000), (9, 0xFFFFFFFF)] []).readReg 8 = 0x80000000 ∧
    (stateWith [(8, 0x80000000), (9, 0xFFFFFFFF)] []).readReg 9 = 0xFFFFFFFF ∧
    (stateWith [(8, 0x80000001), (9, 0xFFFFFFFF)] []).readReg 9 ≠ 0 ∧
    ¬((stateWith [(8, 0x80000001), (9, 0xFFFFFFFF)] []).readReg 8 = 0x80000000 ∧
      (stateWith [(8, 0x80000001), (9, 0xFFFFFFFF)] []).readReg 9 = 0xFFFFFFFF) := by decide

/-- AddAddsOrOverflows: the greatest sum that fits, and the least that does not. -/
theorem witness_add :
    FitsSigned (((stateWith [(9, 0x7FFFFFFE), (10, 1)] []).readReg 9).toInt + ((stateWith [(9, 0x7FFFFFFE), (10, 1)] []).readReg 10).toInt) ∧
    ¬FitsSigned (((stateWith [(9, 0x7FFFFFFF), (10, 1)] []).readReg 9).toInt + ((stateWith [(9, 0x7FFFFFFF), (10, 1)] []).readReg 10).toInt) := by
  unfold FitsSigned; decide

/-- SubSubtractsOrOverflows: the least difference that fits, and the greatest below the range. -/
theorem witness_sub :
    FitsSigned (((stateWith [(9, 0x80000001), (10, 1)] []).readReg 9).toInt - ((stateWith [(9, 0x80000001), (10, 1)] []).readReg 10).toInt) ∧
    ¬FitsSigned (((stateWith [(9, 0x80000000), (10, 1)] []).readReg 9).toInt - ((stateWith [(9, 0x80000000), (10, 1)] []).readReg 10).toInt) := by
  unfold FitsSigned; decide

/-- AddiAddsOrOverflows: the same edge with an immediate of -1. -/
theorem witness_addi :
    FitsSigned (((stateWith [(8, 0x80000001)] []).readReg 8).toInt + (0xFFFF : BitVec 16).toInt) ∧
    ¬FitsSigned (((stateWith [(8, 0x80000000)] []).readReg 8).toInt + (0xFFFF : BitVec 16).toInt) := by
  unfold FitsSigned; decide

/-- JumpIsAStub: a state of each J_MODE, and two jumps that both answer a next state. -/
theorem witness_jump : State.reset.params.jMode = .stubNop ∧ (faultingJ State.reset).params.jMode = .notImplementedFault ∧
    ∃ t u, exec (.j ⟨0⟩) State.reset = .next t ∧ exec (.j ⟨256⟩) State.reset = .next u := ⟨rfl, rfl, _, _, rfl, rfl⟩

/-- LwLoadsOrMisses: an address that holds a value, through a wrap past the top of the address space, and one that does not. -/
theorem witness_lw :
    (stateWith [(8, 0xFFFFFFFC)] [(4, 0x11)]).mem.fetch ((stateWith [(8, 0xFFFFFFFC)] [(4, 0x11)]).readReg 8 + (8 : BitVec 16).signExtend 32) =
      some 0x11 ∧
    (stateWith [(8, 0x2000)] [(0x2000, 1)]).mem.fetch ((stateWith [(8, 0x2000)] [(0x2000, 1)]).readReg 8 + (1 : BitVec 16).signExtend 32) = none := by
  decide

/-- StepRunsTheDecodedInstruction, EveryStepAdvancesOrFails, ErrorsComeInOrder: a Faulted state, a Ready one with nothing at its pc, a
Ready one at a word that decodes. -/
theorem witness_step :
    { State.reset with status := .faulted .fetchMiss 0 0 }.status ≠ .ready ∧
    State.reset.status = .ready ∧ State.reset.mem.fetch State.reset.pc = none ∧
    (stateWith [] [(0x100, 0x00094100)]).status = .ready ∧
    (stateWith [] [(0x100, 0x00094100)]).mem.fetch (stateWith [] [(0x100, 0x00094100)]).pc = some 0x00094100 ∧
    decode (stateWith [] [(0x100, 0x00094100)]).params.catalog 0x00094100 = .ok (.sll ⟨0, 9, 8, 4⟩) := by decide

/-- FatalErrorWritesNothing: a step that ends Faulted, and a Run over a boundary with no Reset. -/
theorem witness_fatal : State.reset.status = .ready ∧
    step State.reset = .next { State.reset with status := .faulted .fetchMiss 0 0 } ∧
    ∀ p ∈ [Pending.mk false true], p.reset = false := ⟨rfl, rfl, by decide⟩

/-- OnlyResetLeavesFaulted: a Faulted state and moves with no Reset in them. -/
theorem witness_faulted_moves :
    { State.reset with status := .faulted .fetchMiss 0 0 }.status ≠ .ready ∧
    Control.reset ∉ [Control.step, .halt, .run [⟨false, true⟩]] ∧
    ∀ boundaries, Control.run boundaries ∈ [Control.step, .halt, .run [⟨false, true⟩]] → ∀ p ∈ boundaries, p.reset = false :=
  ⟨by decide, by decide, fun b h => by
    have hb : b = [⟨false, true⟩] := by simpa using h
    subst hb; decide⟩

/-- HiLoControllerLaws, OnlyLoadAndStoreReachMemory, ShiftsReadOnlyRtAndShamt: SLL is none of MULT, MULTU, DIV, LW, SW and answers a next
state; DIV is one of the three; two states with one value of x[9] that differ elsewhere. -/
theorem witness_laws : (∃ t, exec (.sll ⟨0, 9, 8, 4⟩) State.reset = .next t) ∧
    (∀ m ∈ [Mnemonic.mult, .multu, .div, .lw, .sw], (Instr.sll ⟨0, 9, 8, 4⟩).mnemonic ≠ m) ∧
    (Instr.div ⟨8, 9, 0, 0⟩).mnemonic = .div ∧
    (stateWith [(9, 3)] []).readReg 9 = (stateWith [(9, 3), (8, 7), (16, 5)] [(0, 1)]).readReg 9 ∧
    (stateWith [(9, 3)] []).params = (stateWith [(9, 3), (8, 7), (16, 5)] [(0, 1)]).params :=
  ⟨⟨_, rfl⟩, by decide, rfl, by decide, rfl⟩

/-- WrappingAgreesWithChecked: a checked sum, difference and immediate sum that complete, Ready before and after. -/
theorem witness_wrapping : State.reset.status = .ready ∧ ∃ t u v : State, t.status = .ready ∧ u.status = .ready ∧ v.status = .ready ∧
    exec (.add ⟨9, 10, 8, 0⟩) State.reset = .next t ∧ exec (.sub ⟨9, 10, 8, 0⟩) State.reset = .next u ∧
    exec (.addi ⟨8, 9, 0x8000⟩) State.reset = .next v := ⟨rfl, _, _, _, rfl, rfl, rfl, rfl, rfl, rfl⟩

/-- StoredWordIsExecuted: a store of the word of `sll $t0 $t1 4` to 0x104, and the state after it, which stands there. -/
theorem witness_stored_word : ∃ t, exec (.sw ⟨0, 9, 0x104⟩) (stateWith [(9, 0x00094100)] []) = .next t ∧ t.mem = t.mem ∧
    t.status = .ready ∧ t.pc = (stateWith [(9, 0x00094100)] []).readReg 0 + (0x104 : BitVec 16).signExtend 32 ∧
    decode t.params.catalog ((stateWith [(9, 0x00094100)] []).readReg 9) = .ok (.sll ⟨0, 9, 8, 4⟩) ∧
    t.readReg 0 + (0x104 : BitVec 16).signExtend 32 = (stateWith [(9, 0x00094100)] []).readReg 0 + (0x104 : BitVec 16).signExtend 32 :=
  ⟨_, rfl, rfl, rfl, by decide, by decide, by decide⟩

/-- ResetState, PcStaysAligned, HostMovesKeepTheInvariant: a launch that is not refused, and a state a host brings about, here with a Run
to the launch's END. -/
theorem witness_reachable : launch (Launch.standard 4 [(0, 0x3C098000)]) =
      .next (State.afterReset Params.standard ⟨[(0, 0x3C098000)]⟩ []) ∧
    Reachable (applyControls (Launch.standard 4 [(0, 0x3C098000)]) [.run [⟨false, false⟩, ⟨false, false⟩], .halt]
      (State.afterReset Params.standard ⟨[(0, 0x3C098000)]⟩ [])) := by
  have h : launch (Launch.standard 4 [(0, 0x3C098000)]) = .next (State.afterReset Params.standard ⟨[(0, 0x3C098000)]⟩ []) := by
    rw [launch, if_neg (by decide), if_neg (by decide)]; rfl
  exact ⟨h, Launch.standard 4 [(0, 0x3C098000)], _, _, h, rfl⟩

/-- PcStaysAligned, HostMovesKeepTheInvariant: an aligned pc at the top of the address space beside an aligned RESET_PC, and a step from it. -/
theorem witness_aligned : (∃ t, step { State.reset with pc := 0xFFFFFFFC } = .next t) ∧
    ({ State.reset with pc := 0xFFFFFFFC } : State).Inv ∧
    ({ State.reset with pc := 0xFFFFFFFC } : State).params.resetPc.toNat % 4 = 0 :=
  ⟨⟨_, rfl⟩, ⟨by decide, by unfold State.pcAligned; decide, by decide, by unfold State.zeroHeld; decide⟩, by decide⟩

/-- StepKeepsTheInvariant, StepKeepsTheFaultRecord: a state under Discarded that meets the invariant, with its pc at the top of the
address space and one of its registers, its memory and its event trace not empty, and its next state. -/
theorem witness_invariant : ∃ s t : State, s.Inv ∧ s.faultRecordOk ∧ s.notices = [0] ∧ s.params.zeroWrites = .discarded ∧
    s.pc = 0xFFFFFFFC ∧ step s = .next t := by
  refine ⟨{ discarding (stateWith [(31, 1)] [(0xFFFFFFFC, 0x08000000)]) with pc := 0xFFFFFFFC, notices := [0] }, ?_⟩
  refine ⟨_, ⟨by decide, by unfold State.pcAligned; decide, by decide, by unfold State.zeroHeld; decide⟩, trivial, rfl, rfl, rfl, rfl⟩

/-- StepKeepsTheFaultRecord: a Faulted state with a true record. -/
theorem witness_fault_record : State.Inv { State.reset with status := .faulted .fetchMiss 0 0 } ∧
    State.faultRecordOk { State.reset with status := .faulted .fetchMiss 0 0 } :=
  ⟨⟨by decide, by unfold State.pcAligned; decide, by decide, by unfold State.zeroHeld; decide⟩, rfl, rfl, rfl⟩

/-- RunStopsOrSteps: each of its cases. -/
theorem witness_run : (Pending.mk true true).reset = true ∧ (Pending.mk false true).reset = false ∧ (Pending.mk false true).halt = true ∧ (Pending.mk false false).halt = false ∧
    atEndPc 0 State.reset = true ∧ atEndPc 4 State.reset = false ∧ State.reset.status = .ready ∧
    { State.reset with status := .faulted .fetchMiss 0 0 }.status ≠ .ready ∧
    (runWith (atEndPc 8) [⟨false, false⟩] (stateWith [] [(0x100, 0x3C098000)])).1 = .running := by decide

end Sys2Proof.Tests
end

section
/-! PROOFS. The bit-field primitives, the readings of a Word and the overflow predicates (00_scope.md R10 to R18). -/

namespace Sys2Proof.Scope

open Sys2Proof.Machine

/-! The range check and the three answers of `setBits` (R10, R11). -/

theorem rangeOk_iff (hi lo : Int) : rangeOk hi lo = true ↔ 0 ≤ lo ∧ lo ≤ hi ∧ hi ≤ 31 := decide_eq_true_iff

theorem rangeOk_natCast {hi lo : Nat} (hle : lo ≤ hi) (hhi : hi ≤ 31) : rangeOk hi lo = true :=
  (rangeOk_iff _ _).2 ⟨by omega, by omega, by omega⟩

/-- The width of a field whose ends are naturals, as `getBits` and `setBits` compute it. -/
theorem fieldWidth_natCast {hi lo : Nat} (hle : lo ≤ hi) : ((hi : Int) - lo + 1).toNat = hi - lo + 1 := by omega

theorem getBits_of_range (w : Word) {hi lo : Nat} (hle : lo ≤ hi) (hhi : hi ≤ 31) :
    getBits w hi lo = .ok (w.toNat / 2 ^ lo % 2 ^ (hi - lo + 1)) := by
  rw [getBits, if_pos (rangeOk_natCast hle hhi), fieldWidth_natCast hle, Int.toNat_natCast]

theorem setBits_of_not_range (w : Word) (bits : Int) {hi lo : Int} (h : ¬(0 ≤ lo ∧ lo ≤ hi ∧ hi ≤ 31)) :
    setBits w bits hi lo = .error .invalidRange :=
  if_neg (mt (rangeOk_iff hi lo).1 h)

theorem setBits_of_not_fits (w : Word) {bits : Int} {hi lo : Nat} (hle : lo ≤ hi) (hhi : hi ≤ 31)
    (h : ¬(0 ≤ bits ∧ bits ≤ 2 ^ (hi - lo + 1) - 1)) : setBits w bits hi lo = .error .fieldOverflow := by
  rw [setBits, if_pos (rangeOk_natCast hle hhi), fieldWidth_natCast hle, if_neg h]

theorem setBits_of_fits (w : Word) {bits : Int} {hi lo : Nat} (hle : lo ≤ hi) (hhi : hi ≤ 31)
    (h0 : 0 ≤ bits) (h : bits ≤ 2 ^ (hi - lo + 1) - 1) :
    setBits w bits hi lo = .ok ((w &&& ~~~fieldMask hi lo) ||| (w32 bits <<< lo)) := by
  rw [setBits, if_pos (rangeOk_natCast hle hhi), fieldWidth_natCast hle, if_pos ⟨h0, h⟩, Int.toNat_natCast,
    Int.toNat_natCast]

/-! What `setBits` answers, bit by bit. -/

theorem getLsbD_fieldMask {hi lo k : Nat} (hle : lo ≤ hi) (hk : k < 32) :
    (fieldMask hi lo).getLsbD k = decide (lo ≤ k ∧ k ≤ hi) := by
  have hwidth : lo ≤ k → (k - lo < hi - lo + 1 ↔ k ≤ hi) := by omega
  rw [fieldMask, BitVec.getLsbD_ofNat, Nat.testBit_mul_two_pow, Nat.testBit_two_pow_sub_one]
  by_cases hlo : lo ≤ k <;> simp [hk, hlo, hwidth]

/-- `setBits` of a value that fits: its bits stand inside the field, and outside it the word's own. -/
theorem setBits_getLsbD (w : Word) {b hi lo : Nat} (hle : lo ≤ hi) (hhi : hi ≤ 31) (hb : b < 2 ^ (hi - lo + 1)) :
    ∃ w', setBits w b hi lo = .ok w' ∧
      ∀ k < 32, w'.getLsbD k = if lo ≤ k ∧ k ≤ hi then b.testBit (k - lo) else w.getLsbD k := by
  have hfits : (b : Int) ≤ 2 ^ (hi - lo + 1) - 1 := by
    have : (b : Int) < 2 ^ (hi - lo + 1) := by exact_mod_cast hb
    omega
  refine ⟨_, setBits_of_fits w hle hhi (Int.natCast_nonneg b) hfits, fun k hk => ?_⟩
  rw [BitVec.getLsbD_or, BitVec.getLsbD_and, BitVec.getLsbD_not, getLsbD_fieldMask hle hk, BitVec.getLsbD_shiftLeft,
    w32_natCast, BitVec.getLsbD_ofNat]
  by_cases hin : lo ≤ k ∧ k ≤ hi
  · have hlo : ¬k < lo := by omega
    have hk' : k - lo < 32 := by omega
    simp [hin, hk, hlo, hk']
  · by_cases hlo : k < lo
    · simp [hin, hk, hlo]
    · have hhigh : b.testBit (k - lo) = false :=
        Nat.testBit_lt_two_pow (hb.trans_le (Nat.pow_le_pow_right (by decide) (by omega)))
      simp [hin, hk, hhigh]

/-- Settles O13: each bit inside the field is the bit that `getBits` read there, each bit outside is the word's own. -/
theorem fieldRoundTrip : Obligations.FieldRoundTrip := by
  intro w hi lo hlo hle hhi
  lift lo to Nat using hlo
  lift hi to Nat using by omega
  have hle' : lo ≤ hi := by omega
  obtain ⟨w', hset, hbits⟩ := setBits_getLsbD w hle' (by omega) (Nat.mod_lt (w.toNat / 2 ^ lo) (Nat.two_pow_pos _))
  have hsame : w' = w := BitVec.eq_of_getLsbD_eq fun k hk => by
    rw [hbits k hk]
    split
    next hin =>
      obtain ⟨hkl, hkh⟩ := hin
      have hwidth : k - lo < hi - lo + 1 := by omega
      rw [Nat.testBit_mod_two_pow, Nat.testBit_div_two_pow, Nat.sub_add_cancel hkl, BitVec.testBit_toNat]
      simp [hwidth]
    next => rfl
  exact ⟨_, getBits_of_range w hle' (by omega), hsame ▸ hset⟩

/-- The third clause of R11: a value that fits is read back from its field, and the other bits are as before. -/
theorem setBits_changes_one_field (w : Word) (bits : Int) (hi lo : Nat) (hle : lo ≤ hi) (hhi : hi ≤ 31) (h0 : 0 ≤ bits)
    (hfits : bits ≤ 2 ^ (hi - lo + 1) - 1) :
    ∃ w', setBits w bits hi lo = .ok w' ∧ ((w'.extractLsb' lo (hi - lo + 1)).toNat : Int) = bits ∧
      ∀ k < 32, k < lo ∨ hi < k → w'.getLsbD k = w.getLsbD k := by
  lift bits to Nat using h0 with b
  have hb : b < 2 ^ (hi - lo + 1) := by
    have : (b : Int) < 2 ^ (hi - lo + 1) := by omega
    exact_mod_cast this
  obtain ⟨w', hset, hbits⟩ := setBits_getLsbD w hle hhi hb
  have hfield : w'.extractLsb' lo (hi - lo + 1) = BitVec.ofNat (hi - lo + 1) b :=
    BitVec.eq_of_getLsbD_eq fun j hj => by
      have hin : lo ≤ lo + j ∧ lo + j ≤ hi := by omega
      rw [BitVec.getLsbD_extractLsb', BitVec.getLsbD_ofNat, hbits (lo + j) (by omega), if_pos hin, Nat.add_sub_cancel_left]
  refine ⟨w', hset, ?_, fun k hk hout => ?_⟩
  · rw [hfield, BitVec.toNat_ofNat, Nat.mod_eq_of_lt hb]
  · rw [hbits k hk, if_neg (by omega)]

/-- Settles O14: one lemma per answer of `setBits`. -/
theorem setBitsChangesOneField : Obligations.SetBitsChangesOneField :=
  ⟨fun w bits _ _ => setBits_of_not_range w bits, fun w _ _ _ => setBits_of_not_fits w, setBits_changes_one_field⟩

/-! Narrowing to n bits and reading back (R14, R15). -/

theorem asSigned_asUnsigned (v : Int) (n : Nat) : asSigned (asUnsigned v n) n = asSigned v n := by
  simp only [asSigned, asUnsigned, Int.emod_emod]

theorem asSigned_of_range {n : Nat} {v : Int} (hn : 1 ≤ n) (hlow : -2 ^ (n - 1) ≤ v) (hhigh : v ≤ 2 ^ (n - 1) - 1) :
    asSigned v n = v := by
  have hdouble : (2 : Int) ^ n = 2 * 2 ^ (n - 1) := by rw [← pow_succ', Nat.sub_add_cancel hn]
  unfold asSigned
  by_cases hv : 0 ≤ v
  · have hmod : v % 2 ^ n = v := Int.emod_eq_of_lt hv (by omega)
    simp only [hmod]
    exact if_pos (by omega)
  · have hmod : v % 2 ^ n = v + 2 ^ n := by
      rw [← Int.add_emod_right, Int.emod_eq_of_lt (by omega) (by omega)]
    simp only [hmod]
    rw [if_neg (by omega), Int.add_sub_cancel]

/-- Settles O15: masking twice is masking once, and a value in the n-bit range is its own n-bit reading. -/
theorem narrowThenSignExtend : Obligations.NarrowThenSignExtend := by
  refine ⟨fun n v hn _ hlow hhigh => ?_, by decide⟩
  rw [asSigned_asUnsigned, asSigned_of_range hn hlow hhigh]

/-! The readings of `w32(n)` (00_scope.md §5, R13). -/

theorem toNat_w32 (n : Int) : ((w32 n).toNat : Int) = n % 2 ^ 32 := by
  rw [w32, BitVec.toNat_ofInt]
  omega

theorem toSigned_w32_eq_iff (r : Int) : toSigned (w32 r) = r ↔ -2 ^ 31 ≤ r ∧ r ≤ 2 ^ 31 - 1 := by
  constructor
  · intro h
    have hlow := BitVec.le_toInt (w32 r)
    have hhigh := BitVec.toInt_lt (x := w32 r)
    rw [toSigned] at h
    omega
  · rintro ⟨hlow, hhigh⟩
    exact BitVec.toInt_ofInt_eq_self (by decide) hlow (by omega)

theorem toNat_w32_eq_iff (r : Int) : ((w32 r).toNat : Int) = r ↔ 0 ≤ r ∧ r ≤ 2 ^ 32 - 1 := by
  rw [toNat_w32]
  omega

/-! The overflow predicates (R16). -/

theorem detectSignedOverflow_iff (r : Int) : detectSignedOverflow r = true ↔ ¬(-2 ^ 31 ≤ r ∧ r ≤ 2 ^ 31 - 1) := by
  rw [detectSignedOverflow, decide_eq_true_iff]
  omega

theorem detectUnsignedOverflow_iff (r : Int) : detectUnsignedOverflow r = true ↔ ¬(0 ≤ r ∧ r ≤ 2 ^ 32 - 1) := by
  rw [detectUnsignedOverflow, decide_eq_true_iff]
  omega

/-- Settles O16: each predicate negates its range, and the range is where `w32` keeps the value. -/
theorem overflowIsLossOfValue : Obligations.OverflowIsLossOfValue := fun r =>
  ⟨detectSignedOverflow_iff r, (detectSignedOverflow_iff r).trans (toSigned_w32_eq_iff r).not.symm,
    detectUnsignedOverflow_iff r, (detectUnsignedOverflow_iff r).trans (toNat_w32_eq_iff r).not.symm⟩

/-! The signed and the unsigned reading (R13). -/

theorem toSigned_eq_ite (v : Word) : toSigned v = if v.getLsbD 31 then (v.toNat : Int) - 2 ^ 32 else (v.toNat : Int) := by
  rw [toSigned, BitVec.toInt_eq_msb_cond, BitVec.msb_eq_getLsbD_last]
  rfl

theorem toUnsigned_of_range {n : Int} (hlow : -2 ^ 31 ≤ n) (hhigh : n ≤ 2 ^ 32 - 1) :
    (toUnsigned n : Int) = if n < 0 then n + 2 ^ 32 else n := by
  rw [toUnsigned, toNat_w32]
  split <;> omega

theorem toUnsigned_toSigned (v : Word) : toUnsigned (toSigned v) = v.toNat := by
  rw [toUnsigned, toSigned, w32_toInt]

/-- Settles O17: bit 31 is the sign, `w32` adds 2^32 to a negative number, and `w32` undoes the signed reading. -/
theorem signedReadingByTopBit : Obligations.SignedReadingByTopBit :=
  ⟨toSigned_eq_ite, fun _ => toUnsigned_of_range, toUnsigned_toSigned⟩

end Sys2Proof.Scope
end

section
/-! PROOFS. The round trip through dispatch: under a valid CATALOG the word of an instruction decodes to that instruction
(30_encoding.md R111, R114, R135). -/

namespace Sys2Proof.RoundTrip

open Sys2Proof.Machine

/-! What the launch check of a CATALOG says (R104, R111). -/

theorem mem_all (m : Mnemonic) : m ∈ Mnemonic.all := by cases m <;> decide

theorem valid_iff (c : Catalog) :
    c.valid = true ↔ ∀ m, (m.format = .r ∨ c.opcode m ≠ 0) ∧ ∀ n, m = n ∨ c.key m ≠ c.key n := by
  simp [Catalog.valid, mem_all]

theorem opcode_ne_zero_of_valid {c : Catalog} (hvalid : c.valid = true) {m : Mnemonic} (hm : m.format ≠ .r) :
    c.opcode m ≠ 0 :=
  ((valid_iff c).1 hvalid m).1.resolve_left hm

theorem key_injective_of_valid {c : Catalog} (hvalid : c.valid = true) {m n : Mnemonic} (hkey : c.key m = c.key n) :
    m = n :=
  (((valid_iff c).1 hvalid m).2 n).resolve_right (not_not.2 hkey)

theorem opcode_of_format_r (c : Catalog) {m : Mnemonic} (hm : m.format = .r) : c.opcode m = 0 := if_pos hm

theorem funct_of_format_ne_r (c : Catalog) {m : Mnemonic} (hm : m.format ≠ .r) : c.funct m = 0 := if_neg hm

/-! Dispatch (R114, R135). -/

/-- The (opcode, funct) pair of a selected descriptor is fixed by the word. -/
theorem key_of_selects {c : Catalog} {w : Word} {m : Mnemonic} (h : c.selects w m = true) :
    c.key m = (opcodeField w, if opcodeField w = 0 then functField w else 0) := by
  unfold Catalog.selects at h
  split at h
  next hzero =>
    obtain ⟨hformat, hfunct⟩ : m.format = .r ∧ c.funct m = functField w := by simpa using h
    rw [Catalog.key, opcode_of_format_r c hformat, hfunct, if_pos hzero, hzero]
  next hzero =>
    obtain ⟨hformat, hopcode⟩ : m.format ≠ .r ∧ c.opcode m = opcodeField w := by simpa using h
    rw [Catalog.key, hopcode, funct_of_format_ne_r c hformat, if_neg hzero]

/-- Under a valid CATALOG dispatch answers the one descriptor that fits the word. -/
theorem dispatch_of_selects {c : Catalog} (hvalid : c.valid = true) {w : Word} {m : Mnemonic}
    (hm : c.selects w m = true) : dispatch c w = some m := by
  have hfound : (dispatch c w).isSome := List.find?_isSome.2 ⟨m, mem_all m, hm⟩
  obtain ⟨n, hn⟩ := Option.isSome_iff_exists.1 hfound
  have hsame : n = m :=
    key_injective_of_valid hvalid ((key_of_selects (List.find?_some hn)).trans (key_of_selects hm).symm)
  rw [hn, hsame]

/-! The fields of an instruction's word that dispatch reads (R100 to R102). -/

theorem opcodeField_rWord (op fn : BitVec 6) (f : RFields) : opcodeField (rWord op f fn) = op := by
  unfold opcodeField rWord
  iterate 5 refine (BitVec.extractLsb'_append_eq_of_le (by decide)).trans ?_
  exact BitVec.extractLsb'_eq_self

theorem functField_rWord (op fn : BitVec 6) (f : RFields) : functField (rWord op f fn) = fn :=
  (BitVec.extractLsb'_append_eq_of_add_le (by decide)).trans BitVec.extractLsb'_eq_self

theorem opcodeField_iWord (op : BitVec 6) (f : IFields) : opcodeField (iWord op f) = op := by
  unfold opcodeField iWord
  iterate 3 refine (BitVec.extractLsb'_append_eq_of_le (by decide)).trans ?_
  exact BitVec.extractLsb'_eq_self

theorem opcodeField_jWord (op : BitVec 6) (f : JFields) : opcodeField (jWord op f) = op :=
  (BitVec.extractLsb'_append_eq_of_le (by decide)).trans BitVec.extractLsb'_eq_self

theorem opcodeField_encode (c : Catalog) (i : Instr) : opcodeField (encode c i) = c.opcode i.mnemonic := by
  cases i with
  | sll f | srl f | mfhi f | mflo f | mult f | multu f | div f => exact opcodeField_rWord _ _ f
  | add f | addu f | sub f | subu f | and f | or f => exact opcodeField_rWord _ _ f
  | j f => exact opcodeField_jWord _ f
  | addi f | addiu f | andi f | ori f | lui f | lw f | sw f => exact opcodeField_iWord _ f

theorem functField_encode (c : Catalog) (i : Instr) (hr : i.mnemonic.format = .r) :
    functField (encode c i) = c.funct i.mnemonic := by
  cases i with
  | sll f | srl f | mfhi f | mflo f | mult f | multu f | div f => exact functField_rWord _ _ f
  | add f | addu f | sub f | subu f | and f | or f => exact functField_rWord _ _ f
  | j => cases hr
  | addi | addiu | andi | ori | lui | lw | sw => cases hr

theorem selects_encode {c : Catalog} (hvalid : c.valid = true) (i : Instr) :
    c.selects (encode c i) i.mnemonic = true := by
  unfold Catalog.selects
  rw [opcodeField_encode]
  by_cases hr : i.mnemonic.format = .r
  · simp [hr, opcode_of_format_r c hr, functField_encode c i hr]
  · rw [if_neg (opcode_ne_zero_of_valid hvalid hr)]
    simp [hr]

/-! The operand fields of an instruction's word, and the round trip (R130 to R135). -/

theorem instrOf_encode (c : Catalog) : ∀ i : Instr, instrOf i.mnemonic (encode c i) = i
  | .sll f => Laws.Fields.sll f c
  | .srl f => Laws.Fields.srl f c
  | .mfhi f => Laws.Fields.mfhi f c
  | .mflo f => Laws.Fields.mflo f c
  | .mult f => Laws.Fields.mult f c
  | .multu f => Laws.Fields.multu f c
  | .div f => Laws.Fields.div f c
  | .add f => Laws.Fields.add f c
  | .addu f => Laws.Fields.addu f c
  | .sub f => Laws.Fields.sub f c
  | .subu f => Laws.Fields.subu f c
  | .and f => Laws.Fields.and f c
  | .or f => Laws.Fields.or f c
  | .j f => Laws.Fields.j f c
  | .addi f => Laws.Fields.addi f c
  | .addiu f => Laws.Fields.addiu f c
  | .andi f => Laws.Fields.andi f c
  | .ori f => Laws.Fields.ori f c
  | .lui f => Laws.Fields.lui f c
  | .lw f => Laws.Fields.lw f c
  | .sw f => Laws.Fields.sw f c

theorem decode_of_dispatch {c : Catalog} {w : Word} {m : Mnemonic} (h : dispatch c w = some m) :
    decode c w = .ok (instrOf m w) := by
  rw [decode, h]

theorem decode_of_dispatch_none {c : Catalog} {w : Word} (h : dispatch c w = none) :
    decode c w = .error (rejectReason w) := by
  rw [decode, h]

theorem decode_encode {c : Catalog} (hvalid : c.valid = true) (i : Instr) : decode c (encode c i) = .ok i := by
  rw [decode_of_dispatch (dispatch_of_selects hvalid (selects_encode hvalid i)), instrOf_encode]

end Sys2Proof.RoundTrip
end

section
/-! PROOFS. Registers, the step, the run and what they keep (10_state.md R33 to R55). -/

namespace Sys2Proof.CoreState

open Sys2Proof.Machine Sys2Proof.Statements Sys2Proof.RoundTrip

/-! What one step does (R38, R50). -/

/-- The inversion lemma of `step`: an effect of the instruction if Ready, else nothing. -/
theorem step_cases {s t : State} (h : step s = .next t) :
    (s.status = .ready ∧ Effect s t) ∨ (s.status ≠ .ready ∧ t = s) := by
  obtain ⟨u, hu, hcases⟩ := step_effect s
  obtain rfl : u = t := Host.Outcome.next.inj (hu.symm.trans h)
  exact hcases

/-- What every effect of an instruction keeps, a step keeps. -/
theorem step_keeps {P : State → Prop} (hEffect : ∀ s t, Effect s t → P s → P t) {s t : State}
    (h : step s = .next t) (hs : P s) : P t := by
  rcases step_cases h with ⟨-, he⟩ | ⟨-, rfl⟩
  · exact hEffect s t he hs
  · exact hs

/-- An instruction completes with the pc advanced by 4, or fails with the pc where it was (R38). -/
theorem effect_completes_or_fails {s t : State} (h : Effect s t) :
    (t.status = s.status ∧ t.pc = s.pc + 4) ∨ ((∃ kind info, t.status = .faulted kind s.pc info) ∧ t.pc = s.pc) := by
  cases h with
  | register i v => exact .inl ⟨writeReg_status s i v, by simp [nextPc_eq]⟩
  | hiLo hi lo => exact .inl ⟨rfl, nextPc_eq s.pc⟩
  | memory a v => exact .inl ⟨rfl, nextPc_eq s.pc⟩
  | notice => exact .inl ⟨rfl, nextPc_eq s.pc⟩
  | error kind info => exact .inr ⟨⟨kind, info, rfl⟩, rfl⟩

theorem effect_params {s t : State} (h : Effect s t) : t.params = s.params := by
  cases h with
  | register i v => exact writeReg_params s i v
  | hiLo | memory | notice | error => rfl

/-! The pc stays a multiple of 4 (R39). -/

theorem add_four_aligned (pc : Word) (h : pc.toNat % 4 = 0) : (pc + 4).toNat % 4 = 0 := by
  rw [BitVec.toNat_add, show (4 : Word).toNat = 4 from rfl]
  omega

theorem effect_pcAligned (s t : State) (h : Effect s t) (hs : s.pcAligned) : t.pcAligned := by
  unfold State.pcAligned at hs ⊢
  rcases effect_completes_or_fails h with ⟨-, hpc⟩ | ⟨-, hpc⟩
  · rw [hpc]; exact add_four_aligned s.pc hs
  · rw [hpc]; exact hs

theorem step_pcAligned (s t : State) (hs : s.pcAligned) (h : step s = .next t) : t.pcAligned :=
  step_keeps effect_pcAligned h hs

/-- The pc is aligned, and so is the one that the next Reset sets: what a host move needs to keep the pc aligned. -/
structure PcAndResetPcAligned (s : State) : Prop where
  resetPc : s.params.resetPc.toNat % 4 = 0
  pc      : s.pcAligned

theorem effect_pcAndResetPcAligned (s t : State) (h : Effect s t) (hs : PcAndResetPcAligned s) :
    PcAndResetPcAligned t where
  resetPc := by rw [effect_params h]; exact hs.resetPc
  pc := effect_pcAligned s t h hs.pc

theorem applyControl_pcAndResetPcAligned (l : Launch) (m : Control) (s : State) (hs : PcAndResetPcAligned s) :
    PcAndResetPcAligned (applyControl l m s) :=
  applyControl_keeps PcAndResetPcAligned (fun _ h => ⟨h.resetPc, h.resetPc⟩)
    (fun s h => step_keeps effect_pcAndResetPcAligned (step_eq_applyStep s) h) l m s hs

theorem launch_pcAndResetPcAligned {l : Launch} {t : State} (h : launch l = .next t) : PcAndResetPcAligned t := by
  obtain ⟨haligned, -, rfl⟩ := launch_next l t h
  exact ⟨haligned, haligned⟩

/-- Settles O53: a step adds 4 to the pc or leaves it, and a Reset sets it to the aligned RESET_PC. -/
theorem pcStaysAligned : Obligations.PcStaysAligned := by
  refine ⟨step_pcAligned, fun l m s hreset hs => (applyControl_pcAndResetPcAligned l m s ⟨hreset, hs⟩).pc, ?_⟩
  rintro s ⟨l, t, moves, hlaunch, rfl⟩
  exact (applyControls_keeps PcAndResetPcAligned l (applyControl_pcAndResetPcAligned l) moves t
    (launch_pcAndResetPcAligned hlaunch)).pc

/-! The invariant (R34, R39). -/

theorem effect_mem_wf {s t : State} (h : Effect s t) (hs : s.mem.wf = true) : t.mem.wf = true := by
  cases h with
  | register i v => rw [advance_mem, writeReg_mem]; exact hs
  | memory a v => exact store_wf s.mem a v hs
  | hiLo | notice | error => exact hs

/-- A write of a register keeps register 0 at 0 under Discarded, where it has no effect on register 0 (R33). -/
theorem writeReg_zeroHeld (s : State) (i : RegIndex) (v : Word) (hs : s.zeroHeld) : (s.writeReg i v).zeroHeld := by
  intro hdisc
  rw [writeReg_params] at hdisc
  by_cases hi : i = 0
  · rw [hi, writeReg_zero_discarded s v hdisc]
    exact hs hdisc
  · have hne : i.toNat ≠ 0 := fun h => hi (BitVec.eq_of_toNat_eq h)
    rw [State.writeReg, if_neg (fun h => hi h.1)]
    exact (Vector.getElem_set_ne i.isLt (by decide) hne).trans (hs hdisc)

theorem effect_zeroHeld {s t : State} (h : Effect s t) (hs : s.zeroHeld) : t.zeroHeld := by
  cases h with
  | register i v => exact writeReg_zeroHeld s i v hs
  | hiLo | memory | notice | error => exact hs

theorem effect_inv (s t : State) (h : Effect s t) (hs : s.Inv) : t.Inv where
  memory := effect_mem_wf h hs.memory
  pcAligned := effect_pcAligned s t h hs.pcAligned
  params := by rw [effect_params h]; exact hs.params
  zero := effect_zeroHeld h hs.zero

/-- Settles O55: every effect of an instruction keeps each of the four parts. -/
theorem stepKeepsTheInvariant : Obligations.StepKeepsTheInvariant :=
  fun _ _ hs h => step_keeps effect_inv h hs

/-! Registers (R33, R34). -/

/-- Settles O18: a write is read back where it is not discarded, and no other register sees it. -/
theorem registerWritesAndReads : Obligations.RegisterWritesAndReads := by
  refine ⟨fun s i v hi => ?_, fun s v hkept => ?_, fun s v hdisc => ?_, ?_, fun s i => ?_⟩
  · exact readReg_writeReg_same s i v fun h => hi h.1
  · exact readReg_writeReg_same s 0 v fun h => nomatch hkept.symm.trans h.2
  · exact ⟨writeReg_zero_discarded s v hdisc, readReg_zero_discarded s hdisc⟩
  · exact readReg_writeReg_ne
  · exact afterReset_readReg s.params s.mem s.notices i

/-- Settles O42: the three outcomes are those of `step_effect`, the pc and status of each those of the effect. -/
theorem everyStepAdvancesOrFails : Obligations.EveryStepAdvancesOrFails := by
  intro s
  obtain ⟨t, hstep, ⟨hready, heffect⟩ | hnone⟩ := step_effect s
  · refine ⟨t, hstep, .inr ?_⟩
    rcases effect_completes_or_fails heffect with ⟨hstatus, hpc⟩ | hfails
    · exact .inl ⟨hready, hstatus.trans hready, hpc⟩
    · exact .inr ⟨hready, hfails⟩
  · exact ⟨t, hstep, .inl hnone⟩

/-! The answers of `step`, one for each outcome of fetch and decode (R50, R55). -/

theorem step_of_not_ready {s : State} (h : s.status ≠ .ready) : step s = .next s := by
  obtain ⟨t, hstep, ⟨hready, -⟩ | ⟨-, rfl⟩⟩ := step_effect s
  · exact absurd hready h
  · exact hstep

theorem step_of_fetch_none {s : State} (hready : s.status = .ready) (hfetch : s.mem.fetch s.pc = none) :
    step s = .next (s.raise .fetchMiss s.pc) := by
  simp [step, hready, fetchDecode, State.memRead, hfetch, failWith]

theorem step_of_dispatch_none {s : State} {w : Word} (hready : s.status = .ready) (hfetch : s.mem.fetch s.pc = some w)
    (hdispatch : dispatch s.params.catalog w = none) : step s = .next (s.raise .unknownInstruction w) := by
  simp [step, hready, fetchDecode, State.memRead, hfetch, decode_of_dispatch_none hdispatch, failWith]

theorem step_of_decode {s : State} {w : Word} {i : Instr} (hready : s.status = .ready)
    (hfetch : s.mem.fetch s.pc = some w) (hdecode : decode s.params.catalog w = .ok i) : step s = exec i s := by
  simp [step, hready, fetchDecode, State.memRead, hfetch, hdecode]

/-- Taking a fatal error records it and changes nothing else (60_exceptions.md R301). -/
theorem failsWith_raise (s : State) (kind : ErrorKind) (info : Word) : FailsWith s (s.raise kind info) kind info :=
  ⟨rfl, rfl, fun _ => rfl, rfl, rfl, rfl, rfl, fun _ => rfl⟩

/-- Settles O41: one lemma per outcome of fetch and decode. -/
theorem stepRunsTheDecodedInstruction : Obligations.StepRunsTheDecodedInstruction :=
  ⟨fun _ => step_of_not_ready,
    fun s hready hfetch => ⟨_, step_of_fetch_none hready hfetch, failsWith_raise s _ _⟩,
    fun s _ hready hfetch hdispatch => ⟨_, step_of_dispatch_none hready hfetch hdispatch, failsWith_raise s _ _⟩,
    fun _ _ _ => step_of_decode⟩

/-! Placing a word where the step fetches (R50, 20_memory.md R73). -/

theorem withFetchWord_fetch (s : State) (w : Word) :
    (s.withFetchWord 32 w.toNat).mem.fetch (s.withFetchWord 32 w.toNat).pc = some w := by
  have hword : BitVec.ofNat 32 (w.toNat % 2 ^ 32) = w := by
    rw [Nat.mod_eq_of_lt w.isLt, BitVec.ofNat_toNat, BitVec.setWidth_eq]
  rw [State.withFetchWord, hword]
  exact fetch_store_same s.mem s.pc w

/-- Settles O59: the placed word is fetched whole and decodes to its instruction, which the step then runs. -/
theorem placedWordIsRun : Obligations.PlacedWordIsRun := fun s i hvalid =>
  step_of_decode rfl (withFetchWord_fetch s (encode s.params.catalog i)) (decode_encode hvalid i)

/-! The answers of `runWith`, one for each way a boundary goes (R53, 60_exceptions.md R321). -/

section Boundary

variable (endCond : State → Bool) {p : Pending} (rest : List Pending) {s : State}

theorem runWith_reset (s : State) (hreset : p.reset = true) :
    runWith endCond (p :: rest) s = (.wasReset, applyReset s) := by
  simp [runWith, hreset]

theorem runWith_ended_or_halted (hreset : p.reset = false) (hstop : endCond s = true ∨ p.halt = true) :
    (runWith endCond (p :: rest) s).2 = s := by
  cases hend : endCond s with
  | true => simp [runWith, hreset, hend]
  | false => simp [runWith, hreset, hend, hstop.resolve_left (by simp [hend]), applyHalt]

theorem runWith_goes_on (hreset : p.reset = false) (hend : endCond s = false) (hhalt : p.halt = false)
    (hready : s.status = .ready) : runWith endCond (p :: rest) s = runWith endCond rest (applyStep s) := by
  simp [runWith, hreset, hend, hhalt, hready]

theorem runWith_cons_of_not_ready (hreset : p.reset = false) (hs : s.status ≠ .ready) :
    (runWith endCond (p :: rest) s).2 = s := by
  rw [runWith, if_neg (by simp [hreset]), if_neg hs]
  split_ifs <;> rfl

end Boundary

/-- A Run of a state that is not Ready leaves it as it is, unless a Reset is pending (R53, R55). -/
theorem runWith_of_not_ready (endCond : State → Bool) {boundaries : List Pending} {s : State}
    (hreset : ∀ p ∈ boundaries, p.reset = false) (hs : s.status ≠ .ready) :
    (runWith endCond boundaries s).2 = s := by
  cases boundaries with
  | nil => rfl
  | cons p rest => exact runWith_cons_of_not_ready endCond rest (hreset p List.mem_cons_self) hs

/-- A Run that was cut off goes on from the state it was cut off in: each boundary before took a step (R54). -/
theorem runWith_append (endCond : State → Bool) (boundaries more : List Pending) (s : State)
    (h : (runWith endCond boundaries s).1 = .running) :
    runWith endCond (boundaries ++ more) s = runWith endCond more (runWith endCond boundaries s).2 := by
  induction boundaries generalizing s with
  | nil => rfl
  | cons p rest ih =>
    simp only [List.cons_append, runWith] at h ⊢
    split_ifs at h ⊢
    exact ih (applyStep s) h

/-- Settles O58: one lemma per way a boundary goes, and one for the run that was cut off. -/
theorem runStopsOrSteps : Obligations.RunStopsOrSteps := fun endCond _ rest more s =>
  ⟨fun hreset => congrArg Prod.snd (runWith_reset endCond rest s hreset),
    runWith_ended_or_halted endCond rest,
    runWith_cons_of_not_ready endCond rest,
    fun hreset hend hhalt hready =>
      ⟨applyStep s, step_eq_applyStep s, runWith_goes_on endCond rest hreset hend hhalt hready⟩,
    runWith_append endCond rest more s⟩

/-! The Faulted status is left by Reset alone (R55, 60_exceptions.md R322). -/

theorem applyStep_of_not_ready {s : State} (hs : s.status ≠ .ready) : applyStep s = s := by
  rw [applyStep, step_of_not_ready hs]

/-- A host move that is no Reset and has none pending leaves a state that is not Ready as it is. -/
theorem applyControl_of_not_ready (l : Launch) {m : Control} {s : State} (hs : s.status ≠ .ready) (hm : m ≠ .reset)
    (hrun : ∀ boundaries, m = .run boundaries → ∀ p ∈ boundaries, p.reset = false) : applyControl l m s = s := by
  cases m with
  | reset => exact absurd rfl hm
  | step => exact applyStep_of_not_ready hs
  | run boundaries => exact runWith_of_not_ready l.endCond (hrun boundaries rfl) hs
  | halt => rfl

theorem applyControls_cons (l : Launch) (m : Control) (rest : List Control) (s : State) :
    applyControls l (m :: rest) s = applyControls l rest (applyControl l m s) := rfl

theorem applyControls_of_not_ready (l : Launch) {moves : List Control} {s : State} (hs : s.status ≠ .ready)
    (hreset : .reset ∉ moves)
    (hrun : ∀ boundaries, .run boundaries ∈ moves → ∀ p ∈ boundaries, p.reset = false) : applyControls l moves s = s := by
  induction moves with
  | nil => rfl
  | cons m rest ih =>
    have hmove : applyControl l m s = s :=
      applyControl_of_not_ready l hs (fun h => hreset (h ▸ List.mem_cons_self))
        fun boundaries h => hrun boundaries (h ▸ List.mem_cons_self)
    rw [applyControls_cons, hmove]
    exact ih (fun h => hreset (List.mem_cons_of_mem m h)) fun boundaries h => hrun boundaries (List.mem_cons_of_mem m h)

/-- Settles O45: no move but a Reset changes the state, by induction on the moves. -/
theorem onlyResetLeavesFaulted : Obligations.OnlyResetLeavesFaulted :=
  ⟨fun l _ _ => applyControls_of_not_ready l, fun _ s => afterReset_status s.params s.mem s.notices⟩

end Sys2Proof.CoreState
end

section
/-! PROOFS. Who reads and who changes memory, and a stored Word as a later load and a later fetch see it (20_memory.md R74, R82, R85). -/

namespace Sys2Proof.DataMemory

open Sys2Proof.Machine Sys2Proof.Statements Sys2Proof.CoreState

/-! Meanings that do not look at memory (R74). -/

/-- A meaning that does not look at memory: with any other memory in place it answers the same next state, that memory kept. -/
def MemoryBlind (meaning : State → Result) : Prop :=
  ∀ (s t : State) (m : Memory), meaning s = .next t → meaning { s with mem := m } = .next { t with mem := m }

/-- With its own memory put in place, the next state of a blind meaning is the same one: it holds the memory from before. -/
theorem MemoryBlind.mem_eq {meaning : State → Result} (hblind : MemoryBlind meaning) {s t : State}
    (h : meaning s = .next t) : t.mem = s.mem := by
  have hsame : t = { t with mem := s.mem } := Host.Outcome.next.inj (h.symm.trans (hblind s t s.mem h))
  rw [hsame]

theorem writeReg_with_mem (s : State) (dst : RegIndex) (v : Word) (m : Memory) :
    State.writeReg { s with mem := m } dst v = { s.writeReg dst v with mem := m } := by
  unfold State.writeReg
  by_cases hzero : dst = 0 ∧ s.params.zeroWrites = .discarded
  · simp only [if_pos hzero]
  · simp only [if_neg hzero]

theorem complete_memoryBlind {update : State → State}
    (hupdate : ∀ s m, update { s with mem := m } = { update s with mem := m }) :
    MemoryBlind fun s => complete (update s) := by
  rintro s _ m ⟨⟩
  exact congrArg complete (hupdate s m)

theorem completeSigned_memoryBlind (i : Instr) (dst : RegIndex) {r : State → Int}
    (hr : ∀ s m, r { s with mem := m } = r s) : MemoryBlind fun s => completeSigned i dst (r s) s := by
  intro s t m h
  cases hoverflow : detectSignedOverflow (r s) with
  | true | false =>
    simp only [completeSigned, hr, hoverflow, writeReg_with_mem] at h ⊢
    cases h
    rfl

theorem execJ_memoryBlind (f : JFields) : MemoryBlind (execJ f) := by
  intro s t m h
  cases hmode : s.params.jMode with
  | stubNop | notImplementedFault =>
    simp only [execJ, hmode] at h ⊢
    cases h
    rfl

/-- Every instruction but LW and SW is blind to memory (R74). -/
theorem exec_memoryBlind (i : Instr) (hlw : i.mnemonic ≠ .lw) (hsw : i.mnemonic ≠ .sw) : MemoryBlind (exec i) := by
  cases i with
  | sll f | srl f | mfhi f | mflo f | addu f | subu f | and f | or f =>
    exact complete_memoryBlind fun s m => writeReg_with_mem s f.rd _ m
  | addiu f | andi f | ori f | lui f => exact complete_memoryBlind fun s m => writeReg_with_mem s f.rt _ m
  | mult | multu | div => exact complete_memoryBlind fun _ _ => rfl
  | add f => exact completeSigned_memoryBlind (.add f) f.rd fun _ _ => rfl
  | sub f => exact completeSigned_memoryBlind (.sub f) f.rd fun _ _ => rfl
  | addi f => exact completeSigned_memoryBlind (.addi f) f.rt fun _ _ => rfl
  | j f => exact execJ_memoryBlind f
  | lw => exact absurd rfl hlw
  | sw => exact absurd rfl hsw

theorem execLw_mem {f : IFields} {s t : State} (h : execLw f s = .next t) : t.mem = s.mem := by
  rcases execLw_cases f s with ⟨v, -, hload⟩ | ⟨-, hmiss⟩
  · cases hload.symm.trans h
    exact writeReg_mem s f.rt v
  · cases hmiss.symm.trans h
    rfl

theorem exec_mem_of_ne_sw {i : Instr} {s t : State} (h : exec i s = .next t) (hsw : i.mnemonic ≠ .sw) :
    t.mem = s.mem := by
  by_cases hlw : i.mnemonic = .lw
  · cases i with
    | lw => exact execLw_mem h
    | _ => cases hlw
  · exact (exec_memoryBlind i hlw hsw).mem_eq h

/-- Settles O47: all but LW and SW are blind to memory, so they keep it, and LW writes a register or fails. -/
theorem onlyLoadAndStoreReachMemory : Obligations.OnlyLoadAndStoreReachMemory :=
  ⟨fun _ _ _ => exec_mem_of_ne_sw, fun i s t m h hlw hsw => exec_memoryBlind i hlw hsw s t m h⟩

/-! What completing with a register written is (10_state.md R33, R34, R38). -/

theorem readReg_writeReg (s : State) (dst r : RegIndex) (v : Word) :
    (s.writeReg dst v).readReg r =
      if r = dst ∧ ¬(r = 0 ∧ s.params.zeroWrites = .discarded) then v else s.readReg r := by
  by_cases hr : r = dst
  · subst hr
    by_cases hzero : r = 0 ∧ s.params.zeroWrites = .discarded
    · rw [if_neg fun h => h.2 hzero, State.writeReg, if_pos hzero]
    · rw [if_pos ⟨rfl, hzero⟩, readReg_writeReg_same s r v hzero]
  · rw [if_neg fun h => hr h.1, readReg_writeReg_ne s dst r v hr]

theorem writesRegister_writeReg_advance (s : State) (dst : RegIndex) (v : Word) :
    WritesRegister s (s.writeReg dst v).advance dst v := by
  refine ⟨?_, fun r => readReg_writeReg s dst r v, ?_⟩
  · rw [advance_pc, writeReg_pc, nextPc_eq]
  · simp

/-! A store, and a load and a fetch of the stored address (R82, R85, 45_load_store.md R280, R281). -/

/-- After SW its address holds its Word. -/
theorem fetch_of_exec_sw {f : IFields} {s t : State} (h : exec (.sw f) s = .next t) :
    t.mem.fetch (s.readReg f.rs + f.imm.signExtend 32) = some (s.readReg f.rt) := by
  have hstore : exec (.sw f) s = .next (s.memWrite (effectiveAddress s f) (s.readReg f.rt)).advance := rfl
  cases hstore.symm.trans h
  rw [advance_mem, memWrite_mem, effectiveAddress_eq]
  exact fetch_store_same s.mem _ _

/-- LW of an address that holds a Word writes that Word to its register. -/
theorem exec_lw_of_fetch {f : IFields} {s : State} {w : Word}
    (hfetch : s.mem.fetch (s.readReg f.rs + f.imm.signExtend 32) = some w) :
    exec (.lw f) s = .next (s.writeReg f.rt w).advance := by
  have hread : s.memRead (effectiveAddress s f) = some w := by rw [effectiveAddress_eq]; exact hfetch
  rcases execLw_cases f s with ⟨v, hv, hload⟩ | ⟨hnone, -⟩
  · obtain rfl : v = w := Option.some.inj (hv.symm.trans hread)
    exact hload
  · exact nomatch hnone.symm.trans hread

/-- Settles O50: memory holds the stored Word, which the step at its address decodes and the load of its address reads. -/
theorem storedWordIsExecuted : Obligations.StoredWordIsExecuted := by
  intro f s t u hsw hmem
  have hstored : u.mem.fetch (s.readReg f.rs + f.imm.signExtend 32) = some (s.readReg f.rt) := by
    rw [hmem]; exact fetch_of_exec_sw hsw
  refine ⟨fun i hready hpc hdecode => ?_, fun g haddress => ?_⟩
  · exact step_of_decode hready (by rw [hpc]; exact hstored) hdecode
  · have hload := exec_lw_of_fetch (f := g) (by rw [haddress]; exact hstored)
    exact ⟨_, hload, writesRegister_writeReg_advance u g.rt _⟩

end Sys2Proof.DataMemory
end

section
/-! PROOFS. Words and instructions: decoding and encoding undo each other, dispatch selects the one descriptor that fits, and
the words of the default CATALOG that are instructions (30_encoding.md R100 to R102, R111, R112, R130 to R136). -/

namespace Sys2Proof.DecodeSpace

open Sys2Proof.Machine Sys2Proof.RoundTrip

/-- Settles O2: an instruction's word selects its mnemonic, and the fields read back from it are the instruction's own. -/
theorem decodeOfEncode : Obligations.DecodeOfEncode := fun _ i hvalid => decode_encode hvalid i

/-! When dispatch and decode answer what (R114, R135). -/

theorem selects_of_dispatch {c : Catalog} {w : Word} {m : Mnemonic} (h : dispatch c w = some m) :
    c.selects w m = true :=
  List.find?_some h

theorem dispatch_eq_some_iff {c : Catalog} (hvalid : c.valid = true) {w : Word} {m : Mnemonic} :
    dispatch c w = some m ↔ c.selects w m = true :=
  ⟨selects_of_dispatch, dispatch_of_selects hvalid⟩

theorem decode_eq_ok_iff {c : Catalog} {w : Word} {i : Instr} :
    decode c w = .ok i ↔ ∃ m, dispatch c w = some m ∧ instrOf m w = i := by
  cases h : dispatch c w with
  | none => simp [decode_of_dispatch_none h]
  | some m => simp [decode_of_dispatch h]

theorem exists_decode_eq_ok_iff {c : Catalog} (hvalid : c.valid = true) {w : Word} :
    (∃ i, decode c w = .ok i) ↔ ∃ m, c.selects w m = true := by
  simp only [decode_eq_ok_iff, dispatch_eq_some_iff hvalid]
  exact ⟨fun ⟨_, m, hm, _⟩ => ⟨m, hm⟩, fun ⟨m, hm⟩ => ⟨_, m, hm, rfl⟩⟩

/-- Which field of the word a descriptor's code is compared with. -/
theorem selects_iff_code (c : Catalog) (w : Word) (m : Mnemonic) :
    c.selects w m = true ↔
      (opcodeField w = 0 ∧ m.format = .r ∧ c.code m = functField w) ∨
      (opcodeField w ≠ 0 ∧ m.format ≠ .r ∧ c.code m = opcodeField w) := by
  by_cases hzero : opcodeField w = 0 <;> by_cases hr : m.format = .r <;>
    simp [Catalog.selects, Catalog.opcode, Catalog.funct, hzero, hr]

theorem funct_of_format_r (c : Catalog) {m : Mnemonic} (hm : m.format = .r) : c.funct m = c.code m := if_pos hm

theorem opcode_of_format_ne_r (c : Catalog) {m : Mnemonic} (hm : m.format ≠ .r) : c.opcode m = c.code m := if_neg hm

/-- A descriptor fits exactly the words that hold its opcode and, if it is R-format, its funct. -/
theorem selects_iff_fields {c : Catalog} (hvalid : c.valid = true) (w : Word) (m : Mnemonic) :
    c.selects w m = true ↔ opcodeField w = c.opcode m ∧ (m.format = .r → functField w = c.funct m) := by
  rw [selects_iff_code]
  constructor
  · rintro (⟨hzero, hr, hcode⟩ | ⟨-, hr, hcode⟩)
    · exact ⟨hzero.trans (opcode_of_format_r c hr).symm, fun _ => hcode.symm.trans (funct_of_format_r c hr).symm⟩
    · exact ⟨hcode.symm.trans (opcode_of_format_ne_r c hr).symm, fun h => absurd h hr⟩
  · rintro ⟨hop, hfunct⟩
    by_cases hr : m.format = .r
    · exact .inl ⟨hop.trans (opcode_of_format_r c hr), hr, ((hfunct hr).trans (funct_of_format_r c hr)).symm⟩
    · exact .inr ⟨hop ▸ opcode_ne_zero_of_valid hvalid hr, hr, (hop.trans (opcode_of_format_ne_r c hr)).symm⟩

/-- Settles O5: a descriptor that fits is the one that dispatch finds, and what fits is said by its code. -/
theorem dispatchSelectsTheOneDescriptor : Obligations.DispatchSelectsTheOneDescriptor := fun c w m hvalid =>
  (dispatch_eq_some_iff hvalid).trans (selects_iff_code c w m)

/-! The fields of a word, put back in their places, are the word (R100 to R102). -/

section

open BitVec (extractLsb'_append_extractLsb'_eq_extractLsb' extractLsb'_eq_self)

theorem rWord_of_fields (w : Word) : rWord (opcodeField w) (rFields w) (functField w) = w := by
  simp only [rWord, opcodeField, rFields, functField]
  rw [extractLsb'_append_extractLsb'_eq_extractLsb' (by decide : 26 = 21 + 5),
    extractLsb'_append_extractLsb'_eq_extractLsb' (by decide : 21 = 16 + 5),
    extractLsb'_append_extractLsb'_eq_extractLsb' (by decide : 16 = 11 + 5),
    extractLsb'_append_extractLsb'_eq_extractLsb' (by decide : 11 = 6 + 5),
    extractLsb'_append_extractLsb'_eq_extractLsb' (by decide : 6 = 0 + 6)]
  exact extractLsb'_eq_self

theorem iWord_of_fields (w : Word) : iWord (opcodeField w) (iFields w) = w := by
  simp only [iWord, opcodeField, iFields]
  rw [extractLsb'_append_extractLsb'_eq_extractLsb' (by decide : 26 = 21 + 5),
    extractLsb'_append_extractLsb'_eq_extractLsb' (by decide : 21 = 16 + 5),
    extractLsb'_append_extractLsb'_eq_extractLsb' (by decide : 16 = 0 + 16)]
  exact extractLsb'_eq_self

theorem jWord_of_fields (w : Word) : jWord (opcodeField w) (jFields w) = w := by
  simp only [jWord, opcodeField, jFields]
  rw [extractLsb'_append_extractLsb'_eq_extractLsb' (by decide : 26 = 0 + 26)]
  exact extractLsb'_eq_self

end

/-- The word of the instruction read from a word is that word, if it holds the mnemonic's opcode and funct. -/
theorem encode_instrOf {c : Catalog} {m : Mnemonic} {w : Word} (hop : opcodeField w = c.opcode m)
    (hfunct : m.format = .r → functField w = c.funct m) : encode c (instrOf m w) = w := by
  cases m with
  | sll | srl | mfhi | mflo | mult | multu | div | add | addu | sub | subu | and | or =>
    have h := rWord_of_fields w
    rw [hop, hfunct rfl] at h
    exact h
  | j =>
    have h := jWord_of_fields w
    rw [hop] at h
    exact h
  | addi | addiu | andi | ori | lui | lw | sw =>
    have h := iWord_of_fields w
    rw [hop] at h
    exact h

/-- Settles O3: the decoded instruction keeps every operand field, and the selected descriptor has the word's other bits. -/
theorem encodeOfDecode : Obligations.EncodeOfDecode := by
  intro c w i hvalid hdecode
  obtain ⟨m, hdispatch, rfl⟩ := decode_eq_ok_iff.1 hdecode
  obtain ⟨hop, hfunct⟩ := (selects_iff_fields hvalid w m).1 (selects_of_dispatch hdispatch)
  exact encode_instrOf hop hfunct

/-! The default CATALOG (R112, R136). -/

theorem standard_valid : Catalog.standard.valid = true := by decide

theorem mem_standard_functs_iff (x : BitVec 6) :
    x ∈ ([0x00, 0x02, 0x10, 0x12, 0x18, 0x19, 0x1A, 0x20, 0x21, 0x22, 0x23, 0x24, 0x25] : List (BitVec 6)) ↔
      ∃ m : Mnemonic, m.format = .r ∧ Catalog.standard.code m = x := by
  have hlist : [0x00, 0x02, 0x10, 0x12, 0x18, 0x19, 0x1A, 0x20, 0x21, 0x22, 0x23, 0x24, 0x25] =
      (Mnemonic.all.filter (·.format = .r)).map Catalog.standard.code := by decide
  rw [hlist]
  simp [mem_all]

theorem mem_standard_opcodes_iff (x : BitVec 6) :
    x ∈ ([0x02, 0x08, 0x09, 0x0C, 0x0D, 0x0F, 0x23, 0x2B] : List (BitVec 6)) ↔
      ∃ m : Mnemonic, m.format ≠ .r ∧ Catalog.standard.code m = x := by
  have hlist : [0x02, 0x08, 0x09, 0x0C, 0x0D, 0x0F, 0x23, 0x2B] =
      (Mnemonic.all.filter (·.format ≠ .r)).map Catalog.standard.code := by decide
  rw [hlist]
  simp [mem_all]

theorem standard_code_ne_zero {m : Mnemonic} (hm : m.format ≠ .r) : Catalog.standard.code m ≠ 0 :=
  opcode_of_format_ne_r _ hm ▸ opcode_ne_zero_of_valid standard_valid hm

/-- The decode space of the default CATALOG, by the code that dispatch compares. -/
theorem standard_decodes_iff (w : Word) :
    (∃ i, decode Catalog.standard w = .ok i) ↔
      (∃ m : Mnemonic, m.format ≠ .r ∧ Catalog.standard.code m = opcodeField w) ∨
      (opcodeField w = 0 ∧ ∃ m : Mnemonic, m.format = .r ∧ Catalog.standard.code m = functField w) := by
  simp only [exists_decode_eq_ok_iff standard_valid, selects_iff_code]
  constructor
  · rintro ⟨m, ⟨hzero, hm⟩ | ⟨-, hm⟩⟩
    · exact .inr ⟨hzero, m, hm⟩
    · exact .inl ⟨m, hm⟩
  · rintro (⟨m, hm, hcode⟩ | ⟨hzero, m, hm⟩)
    · exact ⟨m, .inr ⟨hcode ▸ standard_code_ne_zero hm, hm, hcode⟩⟩
    · exact ⟨m, .inl ⟨hzero, hm⟩⟩

theorem dispatch_eq_none_of_decode_ne_ok {c : Catalog} {w : Word} (h : ∀ i, decode c w ≠ .ok i) :
    dispatch c w = none := by
  cases hdispatch : dispatch c w with
  | none => rfl
  | some m => exact absurd (decode_of_dispatch hdispatch) (h _)

/-- Settles O4: the listed codes are the catalog's by evaluation, and a word that does not decode has no descriptor. -/
theorem illegalWordsExactly : Obligations.IllegalWordsExactly := by
  refine ⟨fun w => ?_, by decide, by decide, fun s w hready hcatalog hfetch hillegal => ?_⟩
  · rw [mem_standard_opcodes_iff, mem_standard_functs_iff]
    exact standard_decodes_iff w
  · have hdispatch : dispatch s.params.catalog w = none := by
      rw [hcatalog]
      exact dispatch_eq_none_of_decode_ne_ok hillegal
    exact ⟨_, CoreState.step_of_dispatch_none hready hfetch hdispatch, CoreState.failsWith_raise s _ w⟩

/-- Settles O1: the numbers and the nine words by evaluation. -/
theorem specWordsDecode : Obligations.SpecWordsDecode :=
  ⟨by decide, standard_valid, by decide, by decide, by decide, by decide, by decide, by decide, by decide, by decide,
    by decide⟩

end Sys2Proof.DecodeSpace
end

section
/-! PROOFS. Parsing the operands of a line: role by role, and what no role sets stays 0 (30_encoding.md R121, R144). -/

namespace Sys2Proof.OperandParsing

open Sys2Proof.Machine Sys2Proof.RoundTrip

/-! One role after the other (R144). -/

theorem parseOperands_cons_ok {o p : Operands} {role : OperandRole} {roles : List OperandRole} {t : Text}
    {toks : List Text} (h : parseOperand o role t = .ok p) :
    parseOperands (role :: roles) (t :: toks) o = parseOperands roles toks p := by
  rw [parseOperands, h]

theorem parseOperands_cons_error {o : Operands} {e : AsmError} {role : OperandRole} {roles : List OperandRole}
    {t : Text} {toks : List Text} (h : parseOperand o role t = .error e) :
    parseOperands (role :: roles) (t :: toks) o = .error e := by
  rw [parseOperands, h]

/-- Roles that parse hand their operands on to the roles after them. -/
theorem parseOperands_append {before roles : List OperandRole} {given toks : List Text} {o p : Operands}
    (h : parseOperands before given o = .ok p) :
    parseOperands (before ++ roles) (given ++ toks) o = parseOperands roles toks p := by
  induction before, given, o using parseOperands.induct with
  | case1 o => cases h; rfl
  | case2 | case3 => cases h
  | case4 role before t given o q hparse ih =>
    rw [parseOperands_cons_ok hparse] at h
    rw [List.cons_append, List.cons_append, parseOperands_cons_ok hparse, ih h]
  | case5 role before t given o e hparse => rw [parseOperands_cons_error hparse] at h; cases h

/-! What the parse leaves at 0 (R121). -/

/-- What no parsed role sets is after the parse what it was before. -/
theorem parseOperands_keeps (field : Operands → Int) {roles : List OperandRole} {toks : List Text} {o o' : Operands}
    (hkeep : ∀ role ∈ roles, ∀ p t p', parseOperand p role t = .ok p' → field p' = field p)
    (h : parseOperands roles toks o = .ok o') : field o' = field o := by
  induction roles, toks, o using parseOperands.induct with
  | case1 o => cases h; rfl
  | case2 | case3 => cases h
  | case4 role roles t toks o p hparse ih =>
    rw [parseOperands_cons_ok hparse] at h
    calc field o' = field p := ih (fun r hr => hkeep r (List.mem_cons_of_mem role hr)) h
      _ = field o := hkeep role List.mem_cons_self o t p hparse
  | case5 role roles t toks o e hparse => rw [parseOperands_cons_error hparse] at h; cases h

theorem map_eq_ok_iff {ε α β : Type} {f : α → β} {x : Except ε α} {b : β} :
    x.map f = .ok b ↔ ∃ a, x = .ok a ∧ f a = b := by
  cases x <;> simp [Except.map]

/-- A role other than rs and the base-register role leaves rs alone. -/
theorem parseOperand_rs {p p' : Operands} {role : OperandRole} {t : Text} (h : parseOperand p role t = .ok p')
    (hrole : role ≠ .rs) (hbase : role ≠ .offsetBase) : p'.rs = p.rs := by
  cases role with
  | rs => exact absurd rfl hrole
  | offsetBase => exact absurd rfl hbase
  | rd | rt | shamt | immediate | address => obtain ⟨v, -, rfl⟩ := map_eq_ok_iff.1 h; rfl

theorem parseOperand_rt {p p' : Operands} {role : OperandRole} {t : Text} (h : parseOperand p role t = .ok p')
    (hrole : role ≠ .rt) : p'.rt = p.rt := by
  cases role with
  | rt => exact absurd rfl hrole
  | rd | rs | shamt | immediate | address | offsetBase => obtain ⟨v, -, rfl⟩ := map_eq_ok_iff.1 h; rfl

theorem parseOperand_rd {p p' : Operands} {role : OperandRole} {t : Text} (h : parseOperand p role t = .ok p')
    (hrole : role ≠ .rd) : p'.rd = p.rd := by
  cases role with
  | rd => exact absurd rfl hrole
  | rs | rt | shamt | immediate | address | offsetBase => obtain ⟨v, -, rfl⟩ := map_eq_ok_iff.1 h; rfl

theorem parseOperand_shamt {p p' : Operands} {role : OperandRole} {t : Text} (h : parseOperand p role t = .ok p')
    (hrole : role ≠ .shamt) : p'.shamt = p.shamt := by
  cases role with
  | shamt => exact absurd rfl hrole
  | rd | rs | rt | immediate | address | offsetBase => obtain ⟨v, -, rfl⟩ := map_eq_ok_iff.1 h; rfl

section Unnamed

variable {m : Mnemonic} {toks : List Text} {o : Operands} (h : parseOperands m.operandSyntax toks noOperands = .ok o)
include h

theorem parsed_rs_of_not_mem (hrs : .rs ∉ m.operandSyntax) (hbase : .offsetBase ∉ m.operandSyntax) : o.rs = 0 :=
  parseOperands_keeps Operands.rs
    (fun _ hr _ _ _ hp => parseOperand_rs hp (ne_of_mem_of_not_mem hr hrs) (ne_of_mem_of_not_mem hr hbase)) h

theorem parsed_rt_of_not_mem (hrt : .rt ∉ m.operandSyntax) : o.rt = 0 :=
  parseOperands_keeps Operands.rt (fun _ hr _ _ _ hp => parseOperand_rt hp (ne_of_mem_of_not_mem hr hrt)) h

theorem parsed_rd_of_not_mem (hrd : .rd ∉ m.operandSyntax) : o.rd = 0 :=
  parseOperands_keeps Operands.rd (fun _ hr _ _ _ hp => parseOperand_rd hp (ne_of_mem_of_not_mem hr hrd)) h

theorem parsed_shamt_of_not_mem (hshamt : .shamt ∉ m.operandSyntax) : o.shamt = 0 :=
  parseOperands_keeps Operands.shamt (fun _ hr _ _ _ hp => parseOperand_shamt hp (ne_of_mem_of_not_mem hr hshamt)) h

end Unnamed

theorem offsetBase_not_mem_of_r {m : Mnemonic} (hm : m.format = .r) : .offsetBase ∉ m.operandSyntax := by
  have hall : ∀ m ∈ Mnemonic.all, m.format = .r → .offsetBase ∉ m.operandSyntax := by decide
  exact hall m (mem_all m) hm

end Sys2Proof.OperandParsing
end

section
/-! PROOFS. The three encoder engines: what they accept, the word they give, and their round trip through dispatch and the
decoder engines (30_encoding.md R120 to R124, R138). -/

namespace Sys2Proof.Encoders

open Sys2Proof.Machine Sys2Proof.Laws Sys2Proof.RoundTrip Sys2Proof.DecodeSpace Sys2Proof.OperandParsing

/-! Register indices and shift amounts (R120). -/

theorem ofInt_toNat {n : Nat} (x : BitVec n) : BitVec.ofInt n x.toNat = x := by simp

theorem fitsFive_iff (v : Int) : fitsFive v = true ↔ 0 ≤ v ∧ v ≤ 31 := decide_eq_true_iff

/-- The integers in 0..31 are the readings of the 5-bit fields. -/
theorem range_five_iff (v : Int) : 0 ≤ v ∧ v ≤ 31 ↔ ∃ r : RegIndex, v = r.toNat := by
  constructor
  · intro h
    refine ⟨BitVec.ofInt 5 v, ?_⟩
    rw [BitVec.toNat_ofInt]
    omega
  · rintro ⟨r, rfl⟩
    omega

@[simp] theorem fitsFive_toNat (r : RegIndex) : fitsFive r.toNat = true :=
  (fitsFive_iff _).2 ((range_five_iff _).2 ⟨r, rfl⟩)

/-! The R-format encoder (R120). -/

theorem encodeRValues_toNat (c : Catalog) (m : Mnemonic) (rs rt rd shamt : RegIndex) :
    encodeRValues c m rs.toNat rt.toNat rd.toNat shamt.toNat = .ok (c.encodeR m ⟨rs, rt, rd, shamt⟩) := by
  simp only [encodeRValues, fitsFive_toNat, ofInt_toNat, Bool.and_self, if_true]

/-- Every operand of the R-format encoder is in 0..31. -/
def RValuesFit (rs rt rd shamt : Int) : Prop :=
  (0 ≤ rs ∧ rs ≤ 31) ∧ (0 ≤ rt ∧ rt ≤ 31) ∧ (0 ≤ rd ∧ rd ≤ 31) ∧ (0 ≤ shamt ∧ shamt ≤ 31)

theorem exists_rFields_of_fit {rs rt rd shamt : Int} (h : RValuesFit rs rt rd shamt) :
    ∃ f : RFields, rs = f.rs.toNat ∧ rt = f.rt.toNat ∧ rd = f.rd.toNat ∧ shamt = f.shamt.toNat := by
  obtain ⟨hrs, hrt, hrd, hshamt⟩ := h
  obtain ⟨rs, rfl⟩ := (range_five_iff _).1 hrs
  obtain ⟨rt, rfl⟩ := (range_five_iff _).1 hrt
  obtain ⟨rd, rfl⟩ := (range_five_iff _).1 hrd
  obtain ⟨shamt, rfl⟩ := (range_five_iff _).1 hshamt
  exact ⟨⟨rs, rt, rd, shamt⟩, rfl, rfl, rfl, rfl⟩

theorem encodeRValues_of_not_fit (c : Catalog) (m : Mnemonic) {rs rt rd shamt : Int}
    (h : ¬RValuesFit rs rt rd shamt) : encodeRValues c m rs rt rd shamt = .error .fieldOverflow := by
  refine if_neg fun hfits => h ?_
  simpa [fitsFive_iff, RValuesFit, and_assoc] using hfits

/-! `setBits` on the field ranges of the R layout, one after the other (R100, R120). -/

theorem bind_of_ok {ε α β : Type} {x : Except ε α} {a : α} {next : α → Except ε β} (h : x = .ok a) :
    (x >>= next) = next a := by
  rw [h]
  rfl

theorem bind_of_error {ε α β : Type} {x : Except ε α} {e : ε} {next : α → Except ε β} (h : x = .error e) :
    (x >>= next) = .error e := by
  rw [h]
  rfl

/-- Setting a field to a bit vector of its width: the field then holds it, and each field beside it is as before. -/
theorem setBits_field {n : Nat} (w : Word) (x : BitVec n) {hi lo : Nat} (hn : n = hi - lo + 1) (hle : lo ≤ hi)
    (hhi : hi ≤ 31) :
    ∃ w', setBits w x.toNat hi lo = .ok w' ∧ w'.extractLsb' lo n = x ∧
      ∀ start len, start + len ≤ 32 → start + len ≤ lo ∨ hi < start →
        w'.extractLsb' start len = w.extractLsb' start len := by
  subst hn
  have hfits : (x.toNat : Int) ≤ 2 ^ (hi - lo + 1) - 1 := by
    have : (x.toNat : Int) < 2 ^ (hi - lo + 1) := by exact_mod_cast x.isLt
    omega
  obtain ⟨w', hset, hfield, hkeep⟩ := Scope.setBits_changes_one_field w x.toNat hi lo hle hhi (by omega) hfits
  refine ⟨w', hset, BitVec.eq_of_toNat_eq (by exact_mod_cast hfield), fun start len hend hbeside => ?_⟩
  refine BitVec.eq_of_getLsbD_eq fun k hk => ?_
  rw [BitVec.getLsbD_extractLsb', BitVec.getLsbD_extractLsb', hkeep (start + k) (by omega) (by omega)]

/-- The six field ranges of the R layout set in turn, from the word 0. -/
def setRFields (opcode rs rt rd shamt funct : Int) : Except AsmError Word := do
  let w ← setBits 0 opcode 31 26
  let w ← setBits w rs 25 21
  let w ← setBits w rt 20 16
  let w ← setBits w rd 15 11
  let w ← setBits w shamt 10 6
  setBits w funct 5 0

theorem setRFields_toNat (opcode funct : BitVec 6) (f : RFields) :
    setRFields opcode.toNat f.rs.toNat f.rt.toNat f.rd.toNat f.shamt.toNat funct.toNat =
      .ok (rWord opcode f funct) := by
  obtain ⟨w1, set1, field1, -⟩ := setBits_field 0 opcode (hi := 31) (lo := 26) rfl (by decide) (by decide)
  obtain ⟨w2, set2, field2, keep2⟩ := setBits_field w1 f.rs (hi := 25) (lo := 21) rfl (by decide) (by decide)
  obtain ⟨w3, set3, field3, keep3⟩ := setBits_field w2 f.rt (hi := 20) (lo := 16) rfl (by decide) (by decide)
  obtain ⟨w4, set4, field4, keep4⟩ := setBits_field w3 f.rd (hi := 15) (lo := 11) rfl (by decide) (by decide)
  obtain ⟨w5, set5, field5, keep5⟩ := setBits_field w4 f.shamt (hi := 10) (lo := 6) rfl (by decide) (by decide)
  obtain ⟨w6, set6, field6, keep6⟩ := setBits_field w5 funct (hi := 5) (lo := 0) rfl (by decide) (by decide)
  have hop : opcodeField w6 = opcode := by
    simp [opcodeField, keep6, keep5, keep4, keep3, keep2, field1]
  have hfields : rFields w6 = f := by
    simp [rFields, keep6, keep5, keep4, keep3, field2, field3, field4, field5]
  have hword : w6 = rWord opcode f funct := by
    rw [← rWord_of_fields w6, hop, hfields, functField, field6]
  exact (bind_of_ok set1).trans <| (bind_of_ok set2).trans <| (bind_of_ok set3).trans <|
    (bind_of_ok set4).trans <| (bind_of_ok set5).trans (hword ▸ set6)

/-- A 5-bit field refuses a value outside 0..31; so setting it and going on overflows if going on always does after a value
inside. -/
theorem setBits_five_bind_overflow (w : Word) (v : Int) {hi lo : Nat} (hwidth : hi = lo + 4) (hhi : hi ≤ 31)
    {next : Word → Except AsmError Word}
    (hnext : 0 ≤ v ∧ v ≤ 31 → ∀ w', next w' = .error .fieldOverflow) :
    (setBits w v hi lo >>= next) = .error .fieldOverflow := by
  have hmax : (2 : Int) ^ (hi - lo + 1) - 1 = 31 := by
    rw [hwidth, Nat.add_sub_cancel_left]
    rfl
  by_cases h : 0 ≤ v ∧ v ≤ 31
  · rw [bind_of_ok (Scope.setBits_of_fits w (by omega) hhi h.1 (hmax ▸ h.2))]
    exact hnext h _
  · exact bind_of_error (Scope.setBits_of_not_fits w (by omega) hhi (hmax ▸ h))

theorem setRFields_of_not_fit (opcode funct : BitVec 6) {rs rt rd shamt : Int} (h : ¬RValuesFit rs rt rd shamt) :
    setRFields opcode.toNat rs rt rd shamt funct.toNat = .error .fieldOverflow := by
  obtain ⟨w1, set1, -⟩ := setBits_field 0 opcode (hi := 31) (lo := 26) rfl (by decide) (by decide)
  refine (bind_of_ok set1).trans ?_
  refine setBits_five_bind_overflow w1 rs (hi := 25) (lo := 21) rfl (by decide) fun hrs w2 => ?_
  refine setBits_five_bind_overflow w2 rt (hi := 20) (lo := 16) rfl (by decide) fun hrt w3 => ?_
  refine setBits_five_bind_overflow w3 rd (hi := 15) (lo := 11) rfl (by decide) fun hrd w4 => ?_
  refine setBits_five_bind_overflow w4 shamt (hi := 10) (lo := 6) rfl (by decide) fun hshamt w5 => ?_
  exact absurd ⟨hrs, hrt, hrd, hshamt⟩ h

theorem encodeRValues_eq_setRFields (c : Catalog) (m : Mnemonic) (rs rt rd shamt : Int) :
    encodeRValues c m rs rt rd shamt = setRFields (c.opcode m).toNat rs rt rd shamt (c.funct m).toNat := by
  by_cases h : RValuesFit rs rt rd shamt
  · obtain ⟨f, rfl, rfl, rfl, rfl⟩ := exists_rFields_of_fit h
    rw [encodeRValues_toNat, setRFields_toNat, Catalog.encodeR]
  · rw [encodeRValues_of_not_fit c m h, setRFields_of_not_fit _ _ h]

/-- Settles O7: each `setBits` fills its field and keeps the others, or refuses the value that the encoder refuses. -/
theorem encoderSetsFieldByField : Obligations.EncoderSetsFieldByField := by
  refine fun c m rs rt rd shamt => ⟨encodeRValues_eq_setRFields c m rs rt rd shamt, fun h => ?_,
    encodeRValues_of_not_fit c m⟩
  obtain ⟨f, rfl, rfl, rfl, rfl⟩ := exists_rFields_of_fit h
  simp only [encodeRValues_toNat, Catalog.encodeR, rWord, ofInt_toNat]

/-! The I-format encoder and the readings of its immediate (R122, R131, 00_scope.md R14). -/

theorem ofInt_asUnsigned (v : Int) : BitVec.ofInt 16 (asUnsigned v 16) = BitVec.ofInt 16 v := by
  refine BitVec.eq_of_toNat_eq ?_
  simp [BitVec.toNat_ofInt, asUnsigned]

theorem toNat_ofInt_sixteen (v : Int) : ((BitVec.ofInt 16 v).toNat : Int) = asUnsigned v 16 := by
  rw [BitVec.toNat_ofInt, asUnsigned]
  omega

theorem toInt_ofInt_sixteen (v : Int) : (BitVec.ofInt 16 v).toInt = asSigned v 16 := by
  simp only [BitVec.toInt_ofInt, Int.bmod, asSigned]
  norm_num

theorem encodeIValues_of_range (c : Catalog) (m : Mnemonic) (rs rt : RegIndex) {v : Int}
    (hv : -32768 ≤ v ∧ v ≤ 65535) :
    encodeIValues c m rs.toNat rt.toNat v = .ok (c.encodeI m ⟨rs, rt, BitVec.ofInt 16 v⟩) := by
  have hfits : fitsImmediate v = true := decide_eq_true_iff.2 hv
  simp only [encodeIValues, fitsFive_toNat, hfits, ofInt_toNat, ofInt_asUnsigned, Bool.and_self, if_true]

theorem encodeIValues_of_not_range (c : Catalog) (m : Mnemonic) {rs rt v : Int}
    (h : ¬((0 ≤ rs ∧ rs ≤ 31) ∧ (0 ≤ rt ∧ rt ≤ 31) ∧ (-32768 ≤ v ∧ v ≤ 65535))) :
    encodeIValues c m rs rt v = .error .fieldOverflow := by
  refine if_neg fun hfits => h ?_
  simpa [fitsFive_iff, fitsImmediate, and_assoc] using hfits

/-- Settles O8: the immediate field holds the low 16 bits of v, which the unsigned and the signed 16-bit reading share. -/
theorem immediateEncoderPacksOrRefuses : Obligations.ImmediateEncoderPacksOrRefuses := by
  refine fun c m rs rt v => ⟨?_, encodeIValues_of_not_range c m⟩
  rintro ⟨hrs, hrt, hv⟩
  obtain ⟨rs, rfl⟩ := (range_five_iff _).1 hrs
  obtain ⟨rt, rfl⟩ := (range_five_iff _).1 hrt
  have himm : (c.encodeI m ⟨rs, rt, BitVec.ofInt 16 v⟩).extractLsb' 0 16 = BitVec.ofInt 16 v :=
    congrArg IFields.imm (iFields_iWord (c.opcode m) _)
  refine ⟨_, encodeIValues_of_range c m rs rt hv, ?_, ?_, ?_⟩
  · simp only [Catalog.encodeI, iWord, ofInt_toNat]
  · rw [himm, toNat_ofInt_sixteen]
  · rw [himm, ← toInt_ofInt_sixteen, BitVec.ofInt_toInt]

/-! The J-format encoder (R124). -/

theorem encodeJValues_of_range (c : Catalog) (m : Mnemonic) {a : Int} (h : 0 ≤ a ∧ a ≤ 2 ^ 32 - 1) :
    encodeJValues c m a = .ok (c.encodeJ m ⟨BitVec.ofInt 26 (a / 4)⟩) :=
  if_pos (decide_eq_true_iff.2 h)

theorem encodeJValues_of_not_range (c : Catalog) (m : Mnemonic) {a : Int} (h : ¬(0 ≤ a ∧ a ≤ 2 ^ 32 - 1)) :
    encodeJValues c m a = .error .fieldOverflow :=
  if_neg (mt decide_eq_true_iff.1 h)

theorem target_eq_bits (a : Word) : BitVec.ofInt 26 ((a.toNat : Int) / 4) = a.extractLsb' 2 26 := by
  refine BitVec.eq_of_toNat_eq ?_
  rw [BitVec.toNat_ofInt, BitVec.extractLsb'_toNat, Nat.shiftRight_eq_div_pow]
  omega

/-- The J word of an address holds the address's bits 27..2. -/
theorem encodeJValues_toNat (c : Catalog) (m : Mnemonic) (a : Word) :
    encodeJValues c m a.toNat = .ok (c.encodeJ m ⟨a.extractLsb' 2 26⟩) := by
  rw [encodeJValues_of_range c m (by omega), target_eq_bits]

theorem masked_shift_eq_bits (a : Word) : ((a >>> 2) &&& 0x03FFFFFF).extractLsb' 0 26 = a.extractLsb' 2 26 := by
  refine BitVec.eq_of_toNat_eq ?_
  have hmask : (0x03FFFFFF : Word).toNat = 2 ^ 26 - 1 := rfl
  rw [BitVec.extractLsb'_toNat, BitVec.extractLsb'_toNat, BitVec.toNat_and, hmask, Nat.and_two_pow_sub_one_eq_mod,
    Nat.shiftRight_zero, Nat.mod_mod, BitVec.toNat_ushiftRight]

/-- Settles O9: the encoder's field is the address's bits 27..2, which the shift and the mask leave too. -/
theorem jumpEncoderMasksTheAddress : Obligations.JumpEncoderMasksTheAddress := by
  refine ⟨fun c m a => ?_, fun c m a b h => ?_, fun c m a h => encodeJValues_of_not_range c m (by omega)⟩
  · rw [encodeJValues_toNat, masked_shift_eq_bits, Catalog.encodeJ, jWord]
  · rw [encodeJValues_toNat, encodeJValues_toNat, h]

/-! The round trip (R138). -/

/-- Dispatch of an engine's word selects the descriptor that the engine was given. -/
theorem dispatch_of_fields {c : Catalog} (hvalid : c.valid = true) {w : Word} {m : Mnemonic}
    (hop : opcodeField w = c.opcode m) (hfunct : m.format = .r → functField w = c.funct m) : dispatch c w = some m :=
  dispatch_of_selects hvalid ((selects_iff_fields hvalid w m).2 ⟨hop, hfunct⟩)

theorem dispatch_encodeR {c : Catalog} (hvalid : c.valid = true) (m : Mnemonic) (f : RFields) :
    dispatch c (c.encodeR m f) = some m :=
  dispatch_of_fields hvalid (opcodeField_rWord _ _ f) fun _ => functField_rWord _ _ f

theorem dispatch_encodeI {c : Catalog} (hvalid : c.valid = true) {m : Mnemonic} (hm : m.format ≠ .r) (f : IFields) :
    dispatch c (c.encodeI m f) = some m :=
  dispatch_of_fields hvalid (opcodeField_iWord _ f) fun h => absurd h hm

theorem dispatch_encodeJ {c : Catalog} (hvalid : c.valid = true) {m : Mnemonic} (hm : m.format ≠ .r) (f : JFields) :
    dispatch c (c.encodeJ m f) = some m :=
  dispatch_of_fields hvalid (opcodeField_jWord _ f) fun h => absurd h hm

theorem disassembleR_encodeR (c : Catalog) (m : Mnemonic) (f : RFields) :
    disassembleR (c.encodeR m f) = ⟨c.opcode m, f.rs, f.rt, f.rd, f.shamt, c.funct m⟩ := by
  simp only [disassembleR, Catalog.encodeR, opcodeField_rWord, functField_rWord, rFields_rWord]

theorem disassembleI_encodeI (c : Catalog) (m : Mnemonic) (f : IFields) :
    disassembleI (c.encodeI m f) = ⟨c.opcode m, f.rs, f.rt, f.imm.signExtend 32⟩ := by
  simp only [disassembleI, Catalog.encodeI, opcodeField_iWord, iFields_iWord]

theorem disassembleJ_encodeJ (c : Catalog) (m : Mnemonic) (f : JFields) :
    disassembleJ (c.encodeJ m f) = ⟨c.opcode m, f.target⟩ := by
  simp only [disassembleJ, Catalog.encodeJ, opcodeField_jWord, jFields_jWord]

/-- The low half of a sign-extended immediate is the immediate. -/
theorem extractLsb'_signExtend (x : BitVec 16) : (x.signExtend 32).extractLsb' 0 16 = x := by
  refine BitVec.eq_of_getLsbD_eq fun k hk => ?_
  simp only [BitVec.getLsbD_extractLsb', BitVec.getLsbD_signExtend, Nat.zero_add, hk, if_true, decide_true,
    Bool.true_and, Nat.lt_trans hk (by decide : 16 < 32)]

/-- The signed 16-bit reading on the two halves of the encoder's range (R138). -/
theorem asSigned_sixteen_of_range {v : Int} (hlow : -32768 ≤ v) (hhigh : v ≤ 65535) :
    asSigned v 16 = if v ≤ 32767 then v else v - 65536 := by
  split
  next h => exact Scope.asSigned_of_range (by decide) hlow h
  next h =>
    have hmod : v % 2 ^ 16 = v := Int.emod_eq_of_lt (by omega) (by omega)
    simp only [asSigned, hmod]
    rw [if_neg (by omega)]
    rfl

/-- The R-format clause of the round trip. -/
theorem rFormat_roundTrip (c : Catalog) (m : Mnemonic) (rs rt rd shamt : RegIndex) (hvalid : c.valid = true)
    (hm : m.format = .r) :
    ∃ w, encodeRValues c m rs.toNat rt.toNat rd.toNat shamt.toNat = .ok w ∧ dispatch c w = some m ∧
      disassembleR w = ⟨0, rs, rt, rd, shamt, c.funct m⟩ := by
  refine ⟨_, encodeRValues_toNat c m rs rt rd shamt, dispatch_encodeR hvalid m _, ?_⟩
  rw [disassembleR_encodeR, opcode_of_format_r c hm]

/-- The I-format clause of the round trip. -/
theorem iFormat_roundTrip (c : Catalog) (m : Mnemonic) (rs rt : RegIndex) (v : Int) (hvalid : c.valid = true)
    (hm : m.format = .i) (hlow : -32768 ≤ v) (hhigh : v ≤ 65535) :
    ∃ w, encodeIValues c m rs.toNat rt.toNat v = .ok w ∧ dispatch c w = some m ∧
      (disassembleI w).opcode = c.opcode m ∧ (disassembleI w).rs = rs ∧ (disassembleI w).rt = rt ∧
      toSigned (disassembleI w).imm = asSigned v 16 ∧
      toSigned (disassembleI w).imm = (if v ≤ 32767 then v else v - 65536) ∧
      (32767 < v → (((disassembleI w).imm.extractLsb' 0 16).toNat : Int) = v) := by
  have hsigned : toSigned ((BitVec.ofInt 16 v).signExtend 32) = asSigned v 16 := by
    rw [toSigned, BitVec.toInt_signExtend_of_le (by decide), toInt_ofInt_sixteen]
  refine ⟨_, encodeIValues_of_range c m rs rt ⟨hlow, hhigh⟩, dispatch_encodeI hvalid (by simp [hm]) _, ?_⟩
  rw [disassembleI_encodeI]
  refine ⟨rfl, rfl, rfl, hsigned, hsigned.trans (asSigned_sixteen_of_range hlow hhigh), fun hbig => ?_⟩
  rw [extractLsb'_signExtend, toNat_ofInt_sixteen]
  exact Int.emod_eq_of_lt (by omega) (by omega)

/-- The J-format clause of the round trip. -/
theorem jFormat_roundTrip (c : Catalog) (m : Mnemonic) (address : Int) (hvalid : c.valid = true) (hm : m.format = .j)
    (hlow : 0 ≤ address) (hhigh : address ≤ 2 ^ 32 - 1) :
    ∃ w, encodeJValues c m address = .ok w ∧ dispatch c w = some m ∧
      (disassembleJ w).opcode = c.opcode m ∧ ((disassembleJ w).target.toNat : Int) = address / 4 % 2 ^ 26 := by
  refine ⟨_, encodeJValues_of_range c m ⟨hlow, hhigh⟩, dispatch_encodeJ hvalid (by simp [hm]) _, ?_⟩
  rw [disassembleJ_encodeJ]
  refine ⟨rfl, ?_⟩
  rw [BitVec.toNat_ofInt]
  omega

/-- Settles O6: one lemma per format, and one per field that a parse leaves at 0. -/
theorem encodersRoundTrip : Obligations.EncodersRoundTrip :=
  ⟨rFormat_roundTrip,
    fun _ _ _ hm h => ⟨fun hrs => parsed_rs_of_not_mem h hrs (offsetBase_not_mem_of_r hm), parsed_rt_of_not_mem h,
      parsed_rd_of_not_mem h, parsed_shamt_of_not_mem h⟩,
    iFormat_roundTrip, jFormat_roundTrip⟩

end Sys2Proof.Encoders
end

section
/-! PROOFS. The assembler: its check order, mnemonic lookup, the words it gives, and the canonical text (30_encoding.md R113,
R121, R123, R140 to R151). -/

namespace Sys2Proof.AssemblerText

open Sys2Proof.Machine Sys2Proof.Statements Sys2Proof.Laws Sys2Proof.RoundTrip Sys2Proof.OperandParsing
  Sys2Proof.Encoders

/-! A line that assembles (R121, R123, R145). -/

/-- `assemble` answers only for operands that parse and encode, with the text of the word's instruction. -/
theorem assemble_eq_ok {c : Catalog} {m : Mnemonic} {toks : List Text} {w : Word} {text : Text}
    (h : assemble c m toks = .ok (w, text)) :
    ∃ o, parseOperands m.operandSyntax toks noOperands = .ok o ∧ encodeOperands c m o = .ok w ∧
      text = canonicalText (instrOf m w) := by
  unfold assemble at h
  cases hparse : parseOperands m.operandSyntax toks noOperands with
  | error e => simp [hparse] at h
  | ok o =>
    simp only [hparse] at h
    obtain ⟨w', hencode, hpair⟩ := map_eq_ok_iff.1 h
    cases hpair
    exact ⟨o, rfl, hencode, rfl⟩

/-- An engine that answers a word answers the one it builds. -/
theorem eq_of_guarded_ok {fits : Prop} [Decidable fits] {built w : Word} {e : AsmError}
    (h : (if fits then Except.ok built else .error e) = .ok w) : w = built := by
  split at h
  · exact (Except.ok.inj h).symm
  · cases h

section Encoded

variable {c : Catalog} {m : Mnemonic} {o : Operands} {w : Word} (h : encodeOperands c m o = .ok w)
include h

theorem encodeOperands_of_r (hm : m.format = .r) :
    w = c.encodeR m ⟨BitVec.ofInt 5 o.rs, BitVec.ofInt 5 o.rt, BitVec.ofInt 5 o.rd, BitVec.ofInt 5 o.shamt⟩ := by
  rw [encodeOperands, hm] at h
  exact eq_of_guarded_ok h

theorem encodeOperands_of_i (hm : m.format = .i) :
    w = c.encodeI m ⟨BitVec.ofInt 5 o.rs, BitVec.ofInt 5 o.rt, BitVec.ofInt 16 (asUnsigned o.immediate 16)⟩ := by
  rw [encodeOperands, hm] at h
  exact eq_of_guarded_ok h

theorem encodeOperands_of_j (hm : m.format = .j) : w = c.encodeJ m ⟨BitVec.ofInt 26 (o.address / 4)⟩ := by
  rw [encodeOperands, hm] at h
  exact eq_of_guarded_ok h

theorem dispatch_of_encodeOperands (hvalid : c.valid = true) : dispatch c w = some m := by
  cases hm : m.format with
  | r => rw [encodeOperands_of_r h hm]; exact dispatch_encodeR hvalid m _
  | i => rw [encodeOperands_of_i h hm]; exact dispatch_encodeI hvalid (by simp [hm]) _
  | j => rw [encodeOperands_of_j h hm]; exact dispatch_encodeJ hvalid (by simp [hm]) _

theorem rFields_of_encodeOperands (hm : m.format = .r) :
    rFields w = ⟨BitVec.ofInt 5 o.rs, BitVec.ofInt 5 o.rt, BitVec.ofInt 5 o.rd, BitVec.ofInt 5 o.shamt⟩ := by
  rw [encodeOperands_of_r h hm]
  exact rFields_rWord _ _ _

theorem iFields_rs_of_encodeOperands (hm : m.format = .i) : (iFields w).rs = BitVec.ofInt 5 o.rs := by
  rw [encodeOperands_of_i h hm]
  exact congrArg IFields.rs (iFields_iWord _ _)

end Encoded

theorem mnemonic_instrOf (m : Mnemonic) (w : Word) : (instrOf m w).mnemonic = m := by
  cases m <;> rfl

/-- What a parse leaves at 0 is 0 in the word, and that is what each sub-pattern asks for (R121, R123). -/
theorem wellFormed_of_assembled {c : Catalog} {m : Mnemonic} {toks : List Text} {o : Operands} {w : Word}
    (hparse : parseOperands m.operandSyntax toks noOperands = .ok o) (hencode : encodeOperands c m o = .ok w) :
    (instrOf m w).wellFormed = true := by
  cases m with
  | sll | srl =>
    have hrs := parsed_rs_of_not_mem hparse (by decide) (by decide)
    simp [instrOf, Instr.wellFormed, shiftFieldsOk, rFields_of_encodeOperands hencode rfl, hrs]
  | mfhi | mflo =>
    have hrs := parsed_rs_of_not_mem hparse (by decide) (by decide)
    have hrt := parsed_rt_of_not_mem hparse (by decide)
    have hshamt := parsed_shamt_of_not_mem hparse (by decide)
    simp [instrOf, Instr.wellFormed, moveFieldsOk, rFields_of_encodeOperands hencode rfl, hrs, hrt, hshamt]
  | mult | multu | div =>
    have hrd := parsed_rd_of_not_mem hparse (by decide)
    have hshamt := parsed_shamt_of_not_mem hparse (by decide)
    simp [instrOf, Instr.wellFormed, mulDivFieldsOk, rFields_of_encodeOperands hencode rfl, hrd, hshamt]
  | add | addu | sub | subu | and | or =>
    have hshamt := parsed_shamt_of_not_mem hparse (by decide)
    simp [instrOf, Instr.wellFormed, aluFieldsOk, rFields_of_encodeOperands hencode rfl, hshamt]
  | lui =>
    have hrs := parsed_rs_of_not_mem hparse (by decide) (by decide)
    simp [instrOf, Instr.wellFormed, upperFieldsOk, iFields_rs_of_encodeOperands hencode rfl, hrs]
  | j | addi | addiu | andi | ori | lw | sw => rfl

/-- Settles O10: the word selects the line's mnemonic, and its instruction is the one whose text is returned. -/
theorem assembledWordsAreWellFormed : Obligations.AssembledWordsAreWellFormed := by
  intro c m toks w text hvalid h
  obtain ⟨o, hparse, hencode, htext⟩ := assemble_eq_ok h
  exact ⟨instrOf m w, decode_of_dispatch (dispatch_of_encodeOperands hencode hvalid), mnemonic_instrOf m w,
    wellFormed_of_assembled hparse hencode, htext⟩

/-! The check order (R144). -/

theorem assemble_of_parse_error {c : Catalog} {m : Mnemonic} {toks : List Text} {e : AsmError}
    (h : parseOperands m.operandSyntax toks noOperands = .error e) : assemble c m toks = .error e := by
  rw [assemble, h]

theorem assemble_of_parse_ok (c : Catalog) (m : Mnemonic) (toks : List Text) (o : Operands)
    (h : parseOperands m.operandSyntax toks noOperands = .ok o) :
    assemble c m toks = (encodeOperands c m o).map fun w => (w, canonicalText (instrOf m w)) := by
  rw [assemble, h]

/-- The first token that fails its role is the error. -/
theorem assemble_of_failing_token (c : Catalog) (m : Mnemonic) (before after : List OperandRole) (role : OperandRole)
    (given rest : List Text) (t : Text) (o : Operands) (e : AsmError) (hsyntax : m.operandSyntax = before ++ role :: after)
    (hgiven : parseOperands before given noOperands = .ok o) (hfail : parseOperand o role t = .error e) :
    assemble c m (given ++ t :: rest) = .error e := by
  refine assemble_of_parse_error ?_
  rw [hsyntax, parseOperands_append hgiven, parseOperands_cons_error hfail]

/-- A role without a token, and a token without a role, are `InvalidOperands`. -/
theorem assemble_of_wrong_count (c : Catalog) (m : Mnemonic) (roles missing : List OperandRole)
    (given extra : List Text) (o : Operands) (hsyntax : m.operandSyntax = roles ++ missing)
    (hgiven : parseOperands roles given noOperands = .ok o)
    (hcount : (missing = [] ∧ extra ≠ []) ∨ (missing ≠ [] ∧ extra = [])) :
    assemble c m (given ++ extra) = .error .invalidOperands := by
  refine assemble_of_parse_error ?_
  rw [hsyntax, parseOperands_append hgiven]
  rcases hcount with ⟨rfl, hextra⟩ | ⟨hmissing, rfl⟩
  · obtain ⟨t, ts, rfl⟩ := List.exists_cons_of_ne_nil hextra
    rfl
  · obtain ⟨role, roles', rfl⟩ := List.exists_cons_of_ne_nil hmissing
    rfl

/-! No token is both a number and a register name (R141, R142). -/

theorem registerTable_head_dollar : ∀ e ∈ registerTable, e.1.head? = some '$' := by decide

theorem parseRegister_cases (t : Text) :
    (∃ r, parseRegister t = .ok r ∧ t.head? = some '$') ∨ parseRegister t = .error .invalidOperands := by
  unfold parseRegister
  cases hfind : registerTable.find? (fun e => e.1 == t) with
  | none => exact .inr rfl
  | some e =>
    have hname : e.1 = t := by simpa using List.find?_some hfind
    exact .inl ⟨_, rfl, hname ▸ registerTable_head_dollar e (List.mem_of_find?_eq_some hfind)⟩

theorem parseInt_of_head_dollar {t : Text} (h : t.head? = some '$') : parseInt t = none := by
  obtain ⟨rest, rfl⟩ : ∃ rest, t = '$' :: rest := List.head?_eq_some_iff.1 h
  rfl

theorem parseRegister_of_number (t : Text) (v : Int) (h : parseInt t = some v) :
    parseRegister t = .error .invalidOperands := by
  rcases parseRegister_cases t with ⟨r, -, hdollar⟩ | herror
  · exact nomatch (parseInt_of_head_dollar hdollar).symm.trans h
  · exact herror

theorem parseNumber_of_register (t : Text) (r : Int) (h : parseRegister t = .ok r) :
    parseNumber t = .error .invalidOperands := by
  rcases parseRegister_cases t with ⟨_, -, hdollar⟩ | herror
  · rw [parseNumber, parseInt_of_head_dollar hdollar]
  · exact nomatch herror.symm.trans h

/-- `8` stands where LW takes `offset(rs)`, and has no parenthesis: the third token is never looked at (R143, C14). -/
theorem assemble_lw_without_parentheses (c : Catalog) :
    assemble c .lw ["$t0".toList, "8".toList, "$s0".toList] = .error .invalidAddressSyntax :=
  assemble_of_failing_token c .lw [.rt] [] .offsetBase ["$t0".toList] ["$s0".toList] "8".toList ⟨0, 8, 0, 0, 0, 0⟩ _ rfl
    (by decide) (by decide)

/-- Settles O11: one lemma per stage, and one per role error. -/
theorem assemblerCheckOrder : Obligations.AssemblerCheckOrder :=
  ⟨assemble_of_failing_token, assemble_of_wrong_count, assemble_of_parse_ok, parseRegister_of_number,
    parseNumber_of_register, assemble_lw_without_parentheses⟩

/-! Mnemonic lookup (R113). -/

theorem lookupMnemonic_symbol (m : Mnemonic) : lookupMnemonic m.symbol = some m := by
  have hall : ∀ m ∈ Mnemonic.all, lookupMnemonic m.symbol = some m := by decide
  exact hall m (mem_all m)

theorem lookupMnemonic_congr (a b : Text) (h : a.map Char.toLower = b.map Char.toLower) :
    lookupMnemonic a = lookupMnemonic b := by
  rw [lookupMnemonic, h, lookupMnemonic]

theorem lookupMnemonic_eq_none {name : Text} (h : ∀ m : Mnemonic, m.symbol ≠ name.map Char.toLower) :
    lookupMnemonic name = none :=
  List.find?_eq_none.2 fun m _ => by simpa using h m

theorem assembleTokens_of_unknown (c : Catalog) (name : Text) (operands : List Text)
    (h : ∀ m : Mnemonic, m.symbol ≠ name.map Char.toLower) :
    assembleTokens c (name :: operands) = .error .unknownInstruction := by
  rw [assembleTokens, lookupMnemonic_eq_none h]

/-- Settles O12: a lookup depends on the folded name alone, and the symbols are their own folded names. -/
theorem mnemonicLookupFoldsCase : Obligations.MnemonicLookupFoldsCase :=
  have hsll : ∀ name : Text, name.map Char.toLower = Mnemonic.sll.symbol.map Char.toLower →
      lookupMnemonic name = some .sll := fun name h =>
    (lookupMnemonic_congr name _ h).trans (lookupMnemonic_symbol .sll)
  ⟨lookupMnemonic_symbol, lookupMnemonic_congr, hsll _ (by decide), hsll _ (by decide), hsll _ (by decide),
    assembleTokens_of_unknown⟩

/-! Canonical text (R150, R151). -/

/-- The assembler's decimals are the standard ones. -/
theorem decimalText_eq_decimal (v : Int) : decimalText v = decimal v := by
  cases v with
  | ofNat n =>
    have hrepr : toString (Int.ofNat n) = n.repr := rfl
    rw [decimal, hrepr, Nat.repr_eq_ofList_toDigits, String.toList_ofList]
    rfl
  | negSucc n =>
    have hrepr : toString (Int.negSucc n) = "-" ++ (n + 1).repr := rfl
    rw [decimal, hrepr, Nat.repr_eq_ofList_toDigits, String.toList_append,
      String.toList_ofList (l := Nat.toDigits 10 (n + 1))]
    exact if_pos (Int.negSucc_lt_zero n)

theorem registerText_eq_registerName (r : RegIndex) : registerText r.toNat = registerName r :=
  congrArg ('$' :: ·) (decimalText_eq_decimal r.toNat)

/-- The canonical text lists the texts of the mnemonic's operand roles, in order (R150). -/
theorem canonicalText_eq_listed (i : Instr) :
    canonicalText i = listed i.mnemonic (i.mnemonic.operandSyntax.map (operandText (operandsOf i))) := by
  rw [canonicalText, listed, List.flatMap_map]

/-- Settles O60: each sub-pattern evaluates its roles and operand values, and the decimals are the standard ones. -/
theorem canonicalTextOfEachSubPattern : Obligations.CanonicalTextOfEachSubPattern := by
  refine ⟨by decide, ?_, ?_, ?_, ?_, fun f => ?_, ?_, fun f => ?_, ?_⟩
  all_goals
    simp [canonicalText_eq_listed, Instr.mnemonic, Mnemonic.operandSyntax, operandsOf, operandText,
      registerText_eq_registerName, decimalText_eq_decimal]

end Sys2Proof.AssemblerText
end

section
/-! PROOFS. The shifts SLL and SRL (40_shift.md R200 to R202), and the encoding of an R-format instruction
(30_encoding.md R100, R112, R134). -/

namespace Sys2Proof.Shift

open Sys2Proof.Machine Sys2Proof.Statements Sys2Proof.RoundTrip Sys2Proof.DecodeSpace Sys2Proof.DataMemory
  Sys2Proof.Encoders

/-! The encoding of an R-format instruction. -/

/-- A word with opcode 0 and the CATALOG's funct of an R-format mnemonic decodes to that mnemonic's instruction. -/
theorem decode_of_funct {c : Catalog} (hvalid : c.valid = true) {m : Mnemonic} (hm : m.format = .r) {w : Word}
    (hopcode : opcodeField w = 0) (hfunct : functField w = c.code m) : decode c w = .ok (instrOf m w) :=
  decode_of_dispatch ((dispatchSelectsTheOneDescriptor c w m hvalid).2 (.inl ⟨hopcode, hm, hfunct.symm⟩))

/-- What `encode` and `instrOf` say of an R-format instruction is its layout, and its decoding with unused fields ignored. -/
theorem encodedR {m : Mnemonic} {i : RFields → Instr} (hm : m.format = .r)
    (hencode : ∀ c f, encode c (i f) = c.encodeR m f) (hinstr : ∀ w, instrOf m w = i (rFields w)) :
    EncodedR m i m.operandSyntax := by
  refine ⟨rfl, hm, fun c hvalid => ⟨fun f => ?_, fun w hopcode hfunct => ?_⟩⟩
  · rw [hencode, Catalog.encodeR, opcode_of_format_r c hm, funct_of_format_r c hm, rWord]
    rfl
  · rw [decode_of_funct hvalid hm hopcode hfunct, hinstr]
    rfl

/-! Multiplying and dividing by a power of 2 as shifts of the 32-bit pattern. -/

theorem w32_mul_two_pow (x : Word) (n : Nat) : w32 (x.toNat * 2 ^ n) = x <<< n := by
  have hcast : (x.toNat * 2 ^ n : Int) = (x.toNat <<< n : Nat) := by rw [Nat.shiftLeft_eq]; push_cast; rfl
  rw [hcast, w32_natCast]
  exact BitVec.eq_of_toNat_eq ((BitVec.toNat_ofNat _ _).trans BitVec.toNat_shiftLeft.symm)

theorem w32_div_two_pow (x : Word) (n : Nat) : w32 (x.toNat / 2 ^ n) = x >>> n := by
  have hcast : (x.toNat / 2 ^ n : Int) = (x >>> n).toNat := by
    rw [BitVec.toNat_ushiftRight, Nat.shiftRight_eq_div_pow]; push_cast; rfl
  rw [hcast, w32_toNat]

/-! What a shift does, as a function of x[rt] and shamt. -/

/-- The instruction completes with x[rd] as `shift` of x[rt] and shamt, whatever the state and the operands. -/
def ShiftsBy (i : RFields → Instr) (shift : Word → Nat → Word) : Prop :=
  ∀ (f : RFields) (s : State), exec (i f) s = .next (s.writeReg f.rd (shift (s.readReg f.rt) f.shamt.toNat)).advance

theorem sll_shiftsBy : ShiftsBy .sll (· <<< ·) := fun f s =>
  congrArg (fun v => complete (s.writeReg f.rd v)) (w32_mul_two_pow (s.readReg f.rt) f.shamt.toNat)

theorem srl_shiftsBy : ShiftsBy .srl (· >>> ·) := fun f s =>
  congrArg (fun v => complete (s.writeReg f.rd v)) (w32_div_two_pow (s.readReg f.rt) f.shamt.toNat)

/-- What a write leaves in its own register depends on the value and the parameters alone: where the write is discarded,
the register reads 0 (10_state.md R33, R34). -/
theorem readReg_writeReg_same_congr {s s' : State} (hparams : s.params = s'.params) (dst : RegIndex) (v : Word) :
    (s.writeReg dst v).readReg dst = (s'.writeReg dst v).readReg dst := by
  by_cases hzero : dst = 0 ∧ s.params.zeroWrites = .discarded
  · obtain ⟨rfl, hdisc⟩ := hzero
    rw [readReg_zero_discarded _ (by rwa [writeReg_params]),
      readReg_zero_discarded _ (by rwa [writeReg_params, ← hparams])]
  · rw [readReg_writeReg_same s dst v hzero, readReg_writeReg_same s' dst v (hparams ▸ hzero)]

section Shifting

variable {i : RFields → Instr} {shift : Word → Nat → Word} (h : ShiftsBy i shift)
include h

theorem ShiftsBy.writesRegister (f : RFields) (s : State) :
    ∃ t, exec (i f) s = .next t ∧ WritesRegister s t f.rd (shift (s.readReg f.rt) f.shamt.toNat) :=
  ⟨_, h f s, writesRegister_writeReg_advance s f.rd _⟩

theorem ShiftsBy.ignores_rs (f : RFields) (rs : RegIndex) (s : State) : exec (i { f with rs := rs }) s = exec (i f) s :=
  (h { f with rs := rs } s).trans (h f s).symm

theorem ShiftsBy.result_congr (f : RFields) {s t s' t' : State} (hrt : s.readReg f.rt = s'.readReg f.rt)
    (hparams : s.params = s'.params) (ht : exec (i f) s = .next t) (ht' : exec (i f) s' = .next t') :
    t.readReg f.rd = t'.readReg f.rd := by
  cases (h f s).symm.trans ht
  cases (h f s').symm.trans ht'
  rw [hrt]
  exact readReg_writeReg_same_congr hparams f.rd _

end Shifting

/-- Settles O19: multiplying by a power of 2 is the left shift, and a shamt above 31 is out of the encoder's range. -/
theorem sllShiftsLeft : Obligations.SllShiftsLeft := by
  refine ⟨encodedR rfl (fun _ _ => rfl) fun _ => rfl, by decide, sll_shiftsBy.writesRegister, ?_⟩
  intro c rs rt rd shamt hshamt
  refine encodeRValues_of_not_fit c .sll ?_
  rintro ⟨-, -, -, -, hmax⟩
  omega

/-- Settles O20: dividing by a power of 2 is the logical right shift. -/
theorem srlShiftsRightLogically : Obligations.SrlShiftsRightLogically :=
  ⟨encodedR rfl (fun _ _ => rfl) fun _ => rfl, srl_shiftsBy.writesRegister⟩

/-- Settles O48: either instruction is a `ShiftsBy`, whose equation names x[rt], shamt, x[rd] and the pc alone. -/
theorem shiftsReadOnlyRtAndShamt : Obligations.ShiftsReadOnlyRtAndShamt := by
  intro i hi
  obtain ⟨shift, hshift⟩ : ∃ shift, ShiftsBy i shift := by
    rcases List.mem_pair.1 hi with rfl | rfl
    · exact ⟨_, sll_shiftsBy⟩
    · exact ⟨_, srl_shiftsBy⟩
  refine ⟨hshift.ignores_rs, fun f _ _ _ _ => hshift.result_congr f, fun f s => ?_⟩
  obtain ⟨t, hexec, hwrites⟩ := hshift.writesRegister f s
  exact ⟨t, _, hexec, hwrites⟩

end Sys2Proof.Shift
end

section
/-! PROOFS. The hi/lo controller: MFHI, MFLO, MULT, MULTU and DIV, and who writes hi and lo (41_muldiv_hilo.md R210 to R217). -/

namespace Sys2Proof.MulDiv

open Sys2Proof.Machine Sys2Proof.Statements Sys2Proof.DataMemory Sys2Proof.Shift

/-! Reading hi and lo (R210, R211). -/

/-- Settles O21: MFHI completes with hi written to x[rd]. -/
theorem mfhiCopiesHi : Obligations.MfhiCopiesHi :=
  ⟨encodedR rfl (fun _ _ => rfl) fun _ => rfl, fun f s => ⟨_, rfl, writesRegister_writeReg_advance s f.rd s.hi⟩⟩

/-- Settles O22: MFLO completes with lo written to x[rd]. -/
theorem mfloCopiesLo : Obligations.MfloCopiesLo :=
  ⟨encodedR rfl (fun _ _ => rfl) fun _ => rfl, fun f s => ⟨_, rfl, writesRegister_writeReg_advance s f.rd s.lo⟩⟩

/-! What completing with hi and lo written is (10_state.md R38, R40). -/

theorem writesHiLo_writeHiLo_advance (s : State) (hi lo : Word) : WritesHiLo s (s.writeHiLo hi lo).advance hi lo :=
  ⟨nextPc_eq s.pc, rfl, rfl, fun _ => rfl, rfl, rfl, rfl, fun _ => rfl⟩

/-! The products (R212, R213). -/

/-- The two Words that `writeProduct` makes of a 64-bit pattern are that pattern again. -/
theorem append_halves (p : BitVec 64) : (p.extractLsb' 32 32 ++ p.extractLsb' 0 32 : BitVec 64) = p :=
  (BitVec.extractLsb'_append_extractLsb'_eq_extractLsb' rfl).trans BitVec.extractLsb'_eq_self

/-- A pair of Words as one unsigned number: the upper one counts 2^32 fold. -/
theorem toNat_append_words (hi lo : Word) : (hi ++ lo : BitVec 64).toNat = hi.toNat * 2 ^ 32 + lo.toNat := by
  rw [BitVec.toNat_append, ← Nat.shiftLeft_add_eq_or_of_lt lo.isLt, Nat.shiftLeft_eq]

/-- "The product of two 32-bit signed values always fits in 64 bits" (R212). -/
theorem toInt_ofInt_product (x y : Word) : (BitVec.ofInt 64 (x.toInt * y.toInt)).toInt = x.toInt * y.toInt := by
  have hlow : -2 ^ 62 ≤ x.toInt * y.toInt := BitVec.le_toInt_mul_toInt
  have hhigh : x.toInt * y.toInt ≤ 2 ^ 62 := BitVec.toInt_mul_toInt_le
  exact BitVec.toInt_ofInt_eq_self (by decide) (by omega) (by omega)

/-- The product of two unsigned Words is at most (2^32-1)^2, below 2^64 (R213). -/
theorem toNat_ofNat_product (x y : Word) : (BitVec.ofNat 64 (x.toNat * y.toNat)).toNat = x.toNat * y.toNat := by
  have hfits : x.toNat * y.toNat < 2 ^ 32 * 2 ^ 32 := Nat.mul_lt_mul'' x.isLt y.isLt
  exact (BitVec.toNat_ofNat _ _).trans (Nat.mod_eq_of_lt hfits)

/-- Settles O23: hi:lo is the product's 64-bit pattern, whose signed reading is the product since it fits. -/
theorem multGivesTheSignedProduct : Obligations.MultGivesTheSignedProduct := by
  refine ⟨encodedR rfl (fun _ _ => rfl) fun _ => rfl, fun f s => ⟨_, _, _, rfl, writesHiLo_writeHiLo_advance s _ _, ?_⟩⟩
  rw [append_halves]
  exact toInt_ofInt_product (s.readReg f.rs) (s.readReg f.rt)

/-- Settles O24: hi * 2^32 + lo is the unsigned reading of the product's 64-bit pattern, and the product fits in it. -/
theorem multuGivesTheUnsignedProduct : Obligations.MultuGivesTheUnsignedProduct := by
  refine ⟨encodedR rfl (fun _ _ => rfl) fun _ => rfl, fun f s => ⟨_, _, _, rfl, writesHiLo_writeHiLo_advance s _ _, ?_⟩⟩
  rw [← toNat_append_words, append_halves]
  exact toNat_ofNat_product (s.readReg f.rs) (s.readReg f.rt)

/-! The quotient and the remainder as signed division of 32-bit patterns (R214). -/

theorem w32_tdiv (x y : Word) : w32 (x.toInt.tdiv y.toInt) = x.sdiv y :=
  BitVec.eq_of_toInt_eq ((BitVec.toInt_ofInt _).trans (BitVec.toInt_sdiv x y).symm)

theorem w32_tmod (x y : Word) : w32 (x.toInt.tmod y.toInt) = x.srem y := by
  rw [← BitVec.toInt_srem, w32_toInt]

theorem toInt_ne_zero {y : Word} (hy : y ≠ 0) : y.toInt ≠ 0 := BitVec.toInt_ne.2 hy

theorem divide_toSigned (x : Word) {y : Word} (hy : y ≠ 0) :
    divide (toSigned x) (toSigned y) = (x.toInt.tdiv y.toInt, x.toInt.tmod y.toInt) := by
  rw [divide, toSigned, toSigned, if_neg (toInt_ne_zero hy), Int.tmod_def]

theorem exec_div_of_zero {f : RFields} {s : State} (hzero : s.readReg f.rt = 0) :
    exec (.div f) s = .next (s.writeHiLo 0x00000000 0x00000000).advance := by
  have hdiv : divide (toSigned (s.readReg f.rs)) (toSigned (s.readReg f.rt)) = (0, 0) := by rw [hzero]; rfl
  rw [exec, execDiv, hdiv]
  rfl

theorem exec_div_of_ne_zero {f : RFields} {s : State} (hne : s.readReg f.rt ≠ 0) :
    exec (.div f) s =
      .next (s.writeHiLo ((s.readReg f.rs).srem (s.readReg f.rt)) ((s.readReg f.rs).sdiv (s.readReg f.rt))).advance := by
  rw [exec, execDiv, divide_toSigned _ hne, ← w32_tdiv, ← w32_tmod]
  rfl

/-- The quotient is exact for every pair but -2^31 by -1, so quotient and remainder give the dividend back. -/
theorem dividend_eq {x y : Word} (hpair : ¬(x = 0x80000000 ∧ y = 0xFFFFFFFF)) :
    x.toInt = y.toInt * (x.sdiv y).toInt + (x.srem y).toInt := by
  rw [BitVec.toInt_sdiv_of_ne_or_ne x y (not_and_or.1 hpair), BitVec.toInt_srem, Int.mul_tdiv_add_tmod]

theorem abs_tmod_lt (a : Int) {b : Int} (hb : b ≠ 0) : |a.tmod b| < |b| := by
  rw [Int.abs_eq_natAbs, Int.abs_eq_natAbs, Int.natAbs_tmod]
  exact Int.ofNat_lt.2 (Nat.mod_lt _ (Int.natAbs_pos.2 hb))

/-- The remainder of a truncating division is 0 or has the dividend's sign. -/
theorem tmod_sign (a b : Int) : a.tmod b = 0 ∨ (0 < a.tmod b ∧ 0 < a) ∨ (a.tmod b < 0 ∧ a < 0) := by
  rcases lt_trichotomy a 0 with hneg | rfl | hpos
  · have hrem : 0 ≤ -a.tmod b := Int.neg_tmod a b ▸ Int.tmod_nonneg b (by omega : 0 ≤ -a)
    omega
  · exact .inl (Int.zero_tmod b)
  · have hrem : 0 ≤ a.tmod b := Int.tmod_nonneg b hpos.le
    omega

/-- Settles O25: a zero divisor writes 0 and 0; any other writes the signed quotient and remainder of the two Words. -/
theorem divTruncates : Obligations.DivTruncates := by
  refine ⟨encodedR rfl (fun _ _ => rfl) fun _ => rfl, fun f s => ?_⟩
  by_cases hzero : s.readReg f.rt = 0
  · exact ⟨_, _, _, exec_div_of_zero hzero, writesHiLo_writeHiLo_advance s _ _, fun _ => ⟨rfl, rfl⟩,
      fun hne => absurd hzero hne⟩
  · refine ⟨_, _, _, exec_div_of_ne_zero hzero, writesHiLo_writeHiLo_advance s _ _, fun h => absurd h hzero,
      fun _ hpair => ⟨dividend_eq hpair, ?_⟩⟩
    rw [BitVec.toInt_srem]
    exact ⟨abs_tmod_lt _ (toInt_ne_zero hzero), tmod_sign _ _⟩

/-- Settles O26: the divisor is not 0, and the quotient 2^31 wraps to the pattern of -2^31. -/
theorem divOfTheLeastByMinusOne : Obligations.DivOfTheLeastByMinusOne := by
  intro f s hrs hrt
  have hrem : (s.readReg f.rs).srem (s.readReg f.rt) = 0x00000000 := by rw [hrs, hrt]; decide
  have hquot : (s.readReg f.rs).sdiv (s.readReg f.rt) = 0x80000000 := by rw [hrs, hrt]; decide
  have hexec := exec_div_of_ne_zero (f := f) (s := s) (by rw [hrt]; decide)
  rw [hrem, hquot] at hexec
  exact ⟨_, hexec, writesHiLo_writeHiLo_advance s _ _⟩

/-! Who writes hi and lo (R217). -/

/-- The state has hi and lo of the one before. -/
def SameHiLo (s t : State) : Prop := t.hi = s.hi ∧ t.lo = s.lo

theorem sameHiLo_writeReg_advance (s : State) (dst : RegIndex) (v : Word) : SameHiLo s (s.writeReg dst v).advance :=
  ⟨writeReg_hi s dst v, writeReg_lo s dst v⟩

theorem sameHiLo_completeSigned {i : Instr} {dst : RegIndex} {r : Int} {s t : State}
    (h : completeSigned i dst r s = .next t) : SameHiLo s t := by
  rcases completeSigned_cases i dst r s with ⟨-, hraise⟩ | ⟨-, hwrite⟩
  · cases hraise.symm.trans h
    exact ⟨rfl, rfl⟩
  · cases hwrite.symm.trans h
    exact sameHiLo_writeReg_advance s dst _

theorem sameHiLo_execJ {f : JFields} {s t : State} (h : execJ f s = .next t) : SameHiLo s t := by
  rcases execJ_cases f s with ⟨-, hnotice⟩ | ⟨-, hraise⟩
  · cases hnotice.symm.trans h
    exact ⟨rfl, rfl⟩
  · cases hraise.symm.trans h
    exact ⟨rfl, rfl⟩

theorem sameHiLo_execLw {f : IFields} {s t : State} (h : execLw f s = .next t) : SameHiLo s t := by
  rcases execLw_cases f s with ⟨v, -, hload⟩ | ⟨-, hmiss⟩
  · cases hload.symm.trans h
    exact sameHiLo_writeReg_advance s f.rt v
  · cases hmiss.symm.trans h
    exact ⟨rfl, rfl⟩

/-- Every instruction but MULT, MULTU and DIV leaves hi and lo. -/
theorem exec_sameHiLo {i : Instr} {s t : State} (h : exec i s = .next t) (hmult : i.mnemonic ≠ .mult)
    (hmultu : i.mnemonic ≠ .multu) (hdiv : i.mnemonic ≠ .div) : SameHiLo s t := by
  cases i with
  | mult => exact absurd rfl hmult
  | multu => exact absurd rfl hmultu
  | div => exact absurd rfl hdiv
  | sll f | srl f | mfhi f | mflo f | addu f | subu f | and f | or f | addiu f | andi f | ori f | lui f =>
    cases h
    exact sameHiLo_writeReg_advance s _ _
  | add | sub | addi => exact sameHiLo_completeSigned h
  | j => exact sameHiLo_execJ h
  | lw => exact sameHiLo_execLw h
  | sw =>
    cases h
    exact ⟨rfl, rfl⟩

/-- What MULT, MULTU and DIV answer does not depend on what hi and lo held: they read registers alone and write both. -/
theorem exec_writeHiLo {i : Instr} (hwriter : i.mnemonic = .mult ∨ i.mnemonic = .multu ∨ i.mnemonic = .div) (s : State)
    (hi lo : Word) : exec i (s.writeHiLo hi lo) = exec i s := by
  cases i with
  | mult | multu | div => rfl
  | _ => rcases hwriter with hmult | hmultu | hdiv <;> contradiction

/-- Settles O46: no other effect touches hi and lo, and each of the three writes both from registers alone. -/
theorem hiLoControllerLaws : Obligations.HiLoControllerLaws :=
  ⟨fun _ _ _ => exec_sameHiLo, fun _ s hi lo hwriter => exec_writeHiLo hwriter s hi lo⟩

end Sys2Proof.MulDiv
end

section
/-! PROOFS. The register ALU: ADD, ADDU, SUB, SUBU, AND and OR, and where the checked forms agree with the wrapping ones
(42_alu_register.md R230 to R236). -/

namespace Sys2Proof.AluRegister

open Sys2Proof.Machine Sys2Proof.Statements Sys2Proof.CoreState Sys2Proof.DataMemory Sys2Proof.Shift

/-! An exact result of two Words, narrowed with `w32`, is the operation modulo 2^32 (00_scope.md §5). -/

theorem w32_add_toInt (x y : Word) : w32 (x.toInt + y.toInt) = x + y := by
  rw [w32_add, w32_toInt, w32_toInt]

theorem w32_sub_toInt (x y : Word) : w32 (x.toInt - y.toInt) = x - y := by
  rw [w32_sub, w32_toInt, w32_toInt]

theorem w32_add_toNat (x y : Word) : w32 (x.toNat + y.toNat) = x + y := by
  rw [w32_add, w32_toNat, w32_toNat]

theorem w32_sub_toNat (x y : Word) : w32 (x.toNat - y.toNat) = x - y := by
  rw [w32_sub, w32_toNat, w32_toNat]

/-! The instructions that always complete, as functions of x[rs] and x[rt] (R231, R233 to R235). -/

/-- The instruction completes with x[rd] as `op` of x[rs] and x[rt], whatever the state and the operands. -/
def Computes (i : RFields → Instr) (op : Word → Word → Word) : Prop :=
  ∀ (f : RFields) (s : State), exec (i f) s = .next (s.writeReg f.rd (op (s.readReg f.rs) (s.readReg f.rt))).advance

theorem addu_computes : Computes .addu (· + ·) := fun f s =>
  congrArg (fun v => complete (s.writeReg f.rd v)) (w32_add_toNat (s.readReg f.rs) (s.readReg f.rt))

theorem subu_computes : Computes .subu (· - ·) := fun f s =>
  congrArg (fun v => complete (s.writeReg f.rd v)) (w32_sub_toNat (s.readReg f.rs) (s.readReg f.rt))

theorem and_computes : Computes .and (· &&& ·) := fun _ _ => rfl

theorem or_computes : Computes .or (· ||| ·) := fun _ _ => rfl

theorem Computes.writesRegister {i : RFields → Instr} {op : Word → Word → Word} (h : Computes i op) (f : RFields)
    (s : State) :
    ∃ t, exec (i f) s = .next t ∧ WritesRegister s t f.rd (op (s.readReg f.rs) (s.readReg f.rt)) :=
  ⟨_, h f s, writesRegister_writeReg_advance s f.rd _⟩

/-- A bitwise operation gives each bit of x[rd] from the same bit of x[rs] and x[rt]. -/
theorem Computes.writesBits {i : RFields → Instr} {op : Word → Word → Word} {bit : Bool → Bool → Bool}
    (h : Computes i op) (hbit : ∀ x y k, (op x y).getLsbD k = bit (x.getLsbD k) (y.getLsbD k)) (f : RFields) (s : State) :
    ∃ t v, exec (i f) s = .next t ∧ WritesRegister s t f.rd v ∧
      ∀ k < 32, v.getLsbD k = bit ((s.readReg f.rs).getLsbD k) ((s.readReg f.rt).getLsbD k) := by
  obtain ⟨t, hexec, hwrites⟩ := h.writesRegister f s
  exact ⟨t, _, hexec, hwrites, fun k _ => hbit _ _ k⟩

/-- ADDIU completes with x[rt] as the sum of x[rs] and the sign-extended immediate (44_alu_immediate.md R261). -/
theorem exec_addiu (f : IFields) (s : State) :
    exec (.addiu f) s = .next (s.writeReg f.rt (s.readReg f.rs + signedImm f)).advance :=
  congrArg (fun v => complete (s.writeReg f.rt v)) (w32_add_toNat (s.readReg f.rs) (signedImm f))

/-! The checked signed result: its two answers (R230, R232, 44_alu_immediate.md R260). -/

theorem detectSignedOverflow_iff_not_fits (r : Int) : detectSignedOverflow r = true ↔ ¬FitsSigned r :=
  Scope.detectSignedOverflow_iff r

section Checked

variable {i : Instr} {dst : RegIndex} {r : Int} {v : Word} {s : State}

/-- A result that fits is written, and nothing else changes; `v` is what it narrows to. -/
theorem completeSigned_writesRegister (hv : w32 r = v) (hfits : FitsSigned r) :
    ∃ t, completeSigned i dst r s = .next t ∧ WritesRegister s t dst v := by
  rcases completeSigned_cases i dst r s with ⟨hoverflow, -⟩ | ⟨-, hwrite⟩
  · exact absurd hfits ((detectSignedOverflow_iff_not_fits r).1 hoverflow)
  · exact ⟨_, hwrite, hv ▸ writesRegister_writeReg_advance s dst (w32 r)⟩

/-- A result that does not fit is the fatal `IntegerOverflow` with the instruction's word. -/
theorem completeSigned_failsWith (hfits : ¬FitsSigned r) :
    ∃ t, completeSigned i dst r s = .next t ∧ FailsWith s t .integerOverflow (encode s.params.catalog i) := by
  rcases completeSigned_cases i dst r s with ⟨-, hraise⟩ | ⟨hnone, -⟩
  · exact ⟨_, hraise, failsWith_raise s _ _⟩
  · exact nomatch hnone.symm.trans ((detectSignedOverflow_iff_not_fits r).2 hfits)

/-- A next state that is Ready is the one with the narrowed result written. -/
theorem next_of_completeSigned_ready {t : State} (hv : w32 r = v) (h : completeSigned i dst r s = .next t)
    (hready : t.status = .ready) : t = (s.writeReg dst v).advance := by
  rcases completeSigned_cases i dst r s with ⟨-, hraise⟩ | ⟨-, hwrite⟩
  · cases hraise.symm.trans h
    cases hready
  · exact hv ▸ Host.Outcome.next.inj (h.symm.trans hwrite)

end Checked

/-! When a signed result does not fit (R230, R232). -/

/-- A sum overflows only when the operands have one sign and the narrowed sum the other. -/
theorem signs_of_sum_not_fits {x y : Word} (h : ¬FitsSigned (x.toInt + y.toInt)) :
    x.msb = y.msb ∧ (x + y).msb ≠ x.msb := by
  have hoverflow : x.saddOverflow y = true := by
    rw [FitsSigned] at h
    simp only [BitVec.saddOverflow, Bool.or_eq_true, decide_eq_true_eq]
    omega
  simpa [BitVec.saddOverflow_eq] using hoverflow

/-- A Word minus itself is 0, which fits. -/
theorem fitsSigned_sub_self (x : Word) : FitsSigned (x.toInt - x.toInt) := by
  rw [Int.sub_self]
  exact ⟨by decide, by decide⟩

/-! The obligations. -/

/-- Settles O27: the two answers of the checked sum, and the signs that an overflow of it has. -/
theorem addAddsOrOverflows : Obligations.AddAddsOrOverflows :=
  ⟨encodedR rfl (fun _ _ => rfl) fun _ => rfl, fun _ _ => completeSigned_writesRegister (w32_add_toInt _ _),
    fun _ _ hfits => ⟨signs_of_sum_not_fits hfits, completeSigned_failsWith hfits⟩⟩

/-- Settles O28: the unsigned sum narrowed is the sum modulo 2^32. -/
theorem adduWraps : Obligations.AdduWraps :=
  ⟨encodedR rfl (fun _ _ => rfl) fun _ => rfl, addu_computes.writesRegister⟩

/-- Settles O29: the two answers of the checked difference, which is 0 where both operands are one register. -/
theorem subSubtractsOrOverflows : Obligations.SubSubtractsOrOverflows := by
  refine ⟨encodedR rfl (fun _ _ => rfl) fun _ => rfl, fun _ _ => completeSigned_writesRegister (w32_sub_toInt _ _),
    fun f s hfits => ⟨fun hsame => ?_, completeSigned_failsWith hfits⟩⟩
  rw [hsame] at hfits
  exact hfits (fitsSigned_sub_self (s.readReg f.rt))

/-- Settles O30: the unsigned difference narrowed is the difference modulo 2^32. -/
theorem subuWraps : Obligations.SubuWraps :=
  ⟨encodedR rfl (fun _ _ => rfl) fun _ => rfl, subu_computes.writesRegister⟩

/-- Settles O31: each bit of a conjunction of Words is the conjunction of their bits. -/
theorem andIsBitwise : Obligations.AndIsBitwise :=
  ⟨encodedR rfl (fun _ _ => rfl) fun _ => rfl, and_computes.writesBits fun _ _ _ => BitVec.getLsbD_and⟩

/-- Settles O32: each bit of a disjunction of Words is the disjunction of their bits. -/
theorem orIsBitwise : Obligations.OrIsBitwise :=
  ⟨encodedR rfl (fun _ _ => rfl) fun _ => rfl, or_computes.writesBits fun _ _ _ => BitVec.getLsbD_or⟩

/-- Settles O49: a checked form that completes writes what its exact result narrows to, which is the wrapping form's result. -/
theorem wrappingAgreesWithChecked : Obligations.WrappingAgreesWithChecked := by
  intro s t _ hready
  refine ⟨fun f h => ?_, fun f h => ?_, fun f h => ?_⟩
  · rw [next_of_completeSigned_ready (w32_add_toInt _ _) h hready]
    exact addu_computes f s
  · rw [next_of_completeSigned_ready (w32_sub_toInt _ _) h hready]
    exact subu_computes f s
  · rw [next_of_completeSigned_ready (w32_add_toInt _ _) h hready]
    exact exec_addiu f s

end Sys2Proof.AluRegister
end

section
/-! PROOFS. J in its two modes (43_jump.md R250 to R252), and the decoding of a word by its opcode (30_encoding.md R114). -/

namespace Sys2Proof.Jump

open Sys2Proof.Machine Sys2Proof.Statements Sys2Proof.RoundTrip Sys2Proof.DecodeSpace Sys2Proof.CoreState

/-- A word with the CATALOG's opcode of an I- or J-format mnemonic decodes to that mnemonic's instruction. -/
theorem decode_of_opcode {c : Catalog} (hvalid : c.valid = true) {m : Mnemonic} (hm : m.format ≠ .r) {w : Word}
    (hopcode : opcodeField w = c.opcode m) : decode c w = .ok (instrOf m w) :=
  decode_of_dispatch ((dispatch_eq_some_iff hvalid).2
    ((selects_iff_fields hvalid w m).2 ⟨hopcode, fun hr => absurd hr hm⟩))

/-! The answer of J in each mode (R250, R251). -/

theorem exec_j_of_stubNop (f : JFields) {s : State} (hmode : s.params.jMode = .stubNop) :
    exec (.j f) s = .next s.emitNotice.advance := by
  rcases execJ_cases f s with ⟨-, hnotice⟩ | ⟨hfault, -⟩
  · exact hnotice
  · exact nomatch hmode.symm.trans hfault

theorem exec_j_of_notImplementedFault (f : JFields) {s : State} (hmode : s.params.jMode = .notImplementedFault) :
    exec (.j f) s = .next (s.raise .notImplemented (instructionWord s (.j f))) := by
  rcases execJ_cases f s with ⟨hstub, -⟩ | ⟨-, hraise⟩
  · exact nomatch hmode.symm.trans hstub
  · exact hraise

theorem emitsNotice_emitNotice_advance (s : State) : EmitsNotice s s.emitNotice.advance :=
  ⟨nextPc_eq s.pc, rfl, fun _ => rfl, rfl, rfl, rfl, rfl, fun _ => rfl⟩

/-- The targets stand in the recorded word alone, never in the pc (R252). -/
theorem exec_j_pc_eq {f g : JFields} {s t u : State} (ht : exec (.j f) s = .next t) (hu : exec (.j g) s = .next u) :
    t.pc = u.pc := by
  cases hmode : s.params.jMode with
  | stubNop =>
    cases (exec_j_of_stubNop f hmode).symm.trans ht
    cases (exec_j_of_stubNop g hmode).symm.trans hu
    rfl
  | notImplementedFault =>
    cases (exec_j_of_notImplementedFault f hmode).symm.trans ht
    cases (exec_j_of_notImplementedFault g hmode).symm.trans hu
    rfl

/-- Settles O33: one answer per mode, neither with a pc made of the target, and the J layout with the opcode that dispatch
selects by. -/
theorem jumpIsAStub : Obligations.JumpIsAStub :=
  ⟨rfl, fun _ hvalid => ⟨fun _ => rfl, fun _ => decode_of_opcode hvalid (m := .j) (by decide)⟩,
    fun f s hmode => ⟨_, exec_j_of_stubNop f hmode, emitsNotice_emitNotice_advance s⟩,
    fun f s hmode => ⟨_, exec_j_of_notImplementedFault f hmode, failsWith_raise s _ _⟩,
    fun _ _ _ _ _ => exec_j_pc_eq⟩

end Sys2Proof.Jump
end

section
/-! PROOFS. The immediate ALU: ADDI, ADDIU, ANDI, ORI and LUI (44_alu_immediate.md R260 to R265), and the encoding of an I-format
instruction (30_encoding.md R101, R112, R114). -/

namespace Sys2Proof.AluImmediate

open Sys2Proof.Machine Sys2Proof.Statements Sys2Proof.DecodeSpace Sys2Proof.DataMemory Sys2Proof.Shift Sys2Proof.AluRegister
  Sys2Proof.Jump

/-- What `encode` and `instrOf` say of an I-format instruction is its layout, and its decoding by the opcode. -/
theorem encodedI {m : Mnemonic} {i : IFields → Instr} (hm : m.format = .i)
    (hencode : ∀ c f, encode c (i f) = c.encodeI m f) (hinstr : ∀ w, instrOf m w = i (iFields w)) :
    EncodedI m i m.operandSyntax := by
  have hne : m.format ≠ .r := fun hr => nomatch hm.symm.trans hr
  refine ⟨rfl, hm, fun c hvalid => ⟨fun f => ?_, fun w hopcode => ?_⟩⟩
  · rw [hencode, Catalog.encodeI, opcode_of_format_ne_r c hne, iWord]
  · rw [decode_of_opcode hvalid hne (hopcode.trans (opcode_of_format_ne_r c hne).symm), hinstr]
    rfl

/-! The two extensions of the immediate (R265), and what the zero-extended one does to each half of a Word. -/

theorem toSigned_signedImm (f : IFields) : toSigned (signedImm f) = f.imm.toInt :=
  BitVec.toInt_signExtend_of_le (by decide)

theorem zeroImm_eq_append (f : IFields) : zeroImm f = 0#16 ++ f.imm := BitVec.setWidth_eq_append (by decide)

theorem append_halfwords (x : Word) : (x.extractLsb' 16 16 ++ x.extractLsb' 0 16 : Word) = x :=
  BitVec.extractLsb'_append_extractLsb' (w := 16) (len := 16)

theorem and_zeroImm (x : Word) (f : IFields) : x &&& zeroImm f = 0#16 ++ (x.extractLsb' 0 16 &&& f.imm) :=
  calc x &&& zeroImm f
    _ = (x.extractLsb' 16 16 ++ x.extractLsb' 0 16 : Word) &&& (0#16 ++ f.imm : Word) :=
      congrArg₂ (· &&& ·) (append_halfwords x).symm (zeroImm_eq_append f)
    _ = (x.extractLsb' 16 16 &&& 0#16) ++ (x.extractLsb' 0 16 &&& f.imm) := BitVec.and_append
    _ = 0#16 ++ (x.extractLsb' 0 16 &&& f.imm) := by rw [BitVec.and_zero]

theorem or_zeroImm (x : Word) (f : IFields) : x ||| zeroImm f = x.extractLsb' 16 16 ++ (x.extractLsb' 0 16 ||| f.imm) :=
  calc x ||| zeroImm f
    _ = (x.extractLsb' 16 16 ++ x.extractLsb' 0 16 : Word) ||| (0#16 ++ f.imm : Word) :=
      congrArg₂ (· ||| ·) (append_halfwords x).symm (zeroImm_eq_append f)
    _ = (x.extractLsb' 16 16 ||| 0#16) ++ (x.extractLsb' 0 16 ||| f.imm) := BitVec.or_append
    _ = x.extractLsb' 16 16 ++ (x.extractLsb' 0 16 ||| f.imm) := by rw [BitVec.or_zero]

/-- Appending zeros is shifting left in the wider Word. -/
theorem zeroImm_shiftLeft (f : IFields) : zeroImm f <<< 16 = f.imm ++ 0#16 := by
  rw [BitVec.append_def, BitVec.shiftLeftZeroExtend_eq, BitVec.setWidth'_eq, BitVec.setWidth_zero, BitVec.or_zero]
  rfl

/-! The instructions that always complete, as functions of x[rs] and the immediate (R261 to R264). -/

/-- The instruction completes with x[rt] as `op` of x[rs] and the immediate, whatever the state and the operands. -/
def ComputesImm (i : IFields → Instr) (op : Word → BitVec 16 → Word) : Prop :=
  ∀ (f : IFields) (s : State), exec (i f) s = .next (s.writeReg f.rt (op (s.readReg f.rs) f.imm)).advance

theorem addiu_computes : ComputesImm .addiu fun x imm => x + imm.signExtend 32 := exec_addiu

theorem andi_computes : ComputesImm .andi fun x imm => 0#16 ++ (x.extractLsb' 0 16 &&& imm) := fun f s =>
  congrArg (fun v => complete (s.writeReg f.rt v)) (and_zeroImm (s.readReg f.rs) f)

theorem ori_computes : ComputesImm .ori fun x imm => x.extractLsb' 16 16 ++ (x.extractLsb' 0 16 ||| imm) := fun f s =>
  congrArg (fun v => complete (s.writeReg f.rt v)) (or_zeroImm (s.readReg f.rs) f)

theorem lui_computes : ComputesImm .lui fun _ imm => imm ++ 0#16 := fun f s =>
  congrArg (fun v => complete (s.writeReg f.rt v)) ((w32_mul_two_pow (zeroImm f) 16).trans (zeroImm_shiftLeft f))

theorem ComputesImm.writesRegister {i : IFields → Instr} {op : Word → BitVec 16 → Word} (h : ComputesImm i op) (f : IFields)
    (s : State) : ∃ t, exec (i f) s = .next t ∧ WritesRegister s t f.rt (op (s.readReg f.rs) f.imm) :=
  ⟨_, h f s, writesRegister_writeReg_advance s f.rt _⟩

/-! The checked sum with the immediate (R260). -/

theorem exec_addi (f : IFields) (s : State) :
    exec (.addi f) s = completeSigned (.addi f) f.rt ((s.readReg f.rs).toInt + f.imm.toInt) s :=
  congrArg (fun n => completeSigned (.addi f) f.rt ((s.readReg f.rs).toInt + n) s) (toSigned_signedImm f)

theorem w32_add_imm (x : Word) (f : IFields) : w32 (x.toInt + f.imm.toInt) = x + signedImm f := by
  rw [← toSigned_signedImm]
  exact w32_add_toInt x (signedImm f)

/-! The obligations. -/

/-- Settles O34: the two answers of the checked sum, the immediate's signed reading being that of its sign extension. -/
theorem addiAddsOrOverflows : Obligations.AddiAddsOrOverflows := by
  refine ⟨encodedI rfl (fun _ _ => rfl) fun _ => rfl, fun f s hfits => ?_, fun f s hfits => ?_⟩
  · rw [exec_addi]
    exact completeSigned_writesRegister (w32_add_imm _ f) hfits
  · rw [exec_addi]
    exact completeSigned_failsWith hfits

/-- Settles O35: the unsigned sum with the sign-extended immediate narrowed is the sum modulo 2^32. -/
theorem addiuWraps : Obligations.AddiuWraps :=
  ⟨encodedI rfl (fun _ _ => rfl) fun _ => rfl, addiu_computes.writesRegister⟩

/-- Settles O36: the zero-extended immediate clears the upper half and masks the lower. -/
theorem andiMasksWithZeroExtension : Obligations.AndiMasksWithZeroExtension :=
  ⟨encodedI rfl (fun _ _ => rfl) fun _ => rfl, andi_computes.writesRegister⟩

/-- Settles O37: the zero-extended immediate has nothing to set in the upper half. -/
theorem oriKeepsTheUpperHalf : Obligations.OriKeepsTheUpperHalf :=
  ⟨encodedI rfl (fun _ _ => rfl) fun _ => rfl, ori_computes.writesRegister⟩

/-- Settles O38: multiplying the zero-extended immediate by 2^16 puts it over sixteen zeros. -/
theorem luiLoadsTheUpperHalf : Obligations.LuiLoadsTheUpperHalf :=
  ⟨encodedI rfl (fun _ _ => rfl) fun _ => rfl, lui_computes.writesRegister⟩

end Sys2Proof.AluImmediate
end

section
/-! PROOFS. The data memory instructions: LW and SW (45_load_store.md R280 to R282). -/

namespace Sys2Proof.LoadStore

open Sys2Proof.Machine Sys2Proof.Statements Sys2Proof.CoreState Sys2Proof.DataMemory Sys2Proof.AluImmediate

/-- LW of an address with no value is the fatal `MemoryAccessError` of that address; `exec_lw_of_fetch` is the other answer. -/
theorem exec_lw_of_fetch_none {f : IFields} {s : State}
    (hfetch : s.mem.fetch (s.readReg f.rs + f.imm.signExtend 32) = none) :
    exec (.lw f) s = .next (s.raise .memoryAccessError (s.readReg f.rs + f.imm.signExtend 32)) := by
  have haddress : effectiveAddress s f = s.readReg f.rs + f.imm.signExtend 32 := effectiveAddress_eq s f
  rcases execLw_cases f s with ⟨v, hread, -⟩ | ⟨-, hmiss⟩
  · rw [haddress] at hread
    exact nomatch hfetch.symm.trans hread
  · rw [haddress] at hmiss
    exact hmiss

/-- SW completes with x[rt] stored, whatever its address holds. -/
theorem exec_sw (f : IFields) (s : State) :
    exec (.sw f) s = .next (s.memWrite (s.readReg f.rs + f.imm.signExtend 32) (s.readReg f.rt)).advance :=
  congrArg (fun address => complete (s.memWrite address (s.readReg f.rt))) (effectiveAddress_eq s f)

/-- Completing with a Word stored changes that address and the pc alone (20_memory.md R72, R73). -/
theorem storesWord_memWrite_advance (s : State) (address v : Word) :
    StoresWord s (s.memWrite address v).advance address v :=
  ⟨nextPc_eq s.pc, fetch_store_same s.mem address v, fun a => fetch_store_ne s.mem address a v,
    fun _ => rfl, rfl, rfl, rfl, rfl, rfl⟩

/-! The obligations. -/

/-- Settles O39: one answer where memory has a Word at the address, one where it has none. -/
theorem lwLoadsOrMisses : Obligations.LwLoadsOrMisses :=
  ⟨encodedI rfl (fun _ _ => rfl) fun _ => rfl,
    fun f s v hfetch => ⟨_, exec_lw_of_fetch hfetch, writesRegister_writeReg_advance s f.rt v⟩,
    fun _ s hfetch => ⟨_, exec_lw_of_fetch_none hfetch, failsWith_raise s _ _⟩⟩

/-- Settles O40: SW completes with its Word stored, which no other address and no register sees. -/
theorem swStoresOneWord : Obligations.SwStoresOneWord :=
  ⟨encodedI rfl (fun _ _ => rfl) fun _ => rfl, fun f s => ⟨_, exec_sw f s, storesWord_memWrite_advance s _ _⟩⟩

end Sys2Proof.LoadStore
end

section
/-! PROOFS. Fatal errors: which instruction raises which, what the record says, and that nothing else is written
(60_exceptions.md R300 to R302, R310 to R314, R320). -/

namespace Sys2Proof.FatalErrors

open Sys2Proof.Machine Sys2Proof.Statements Sys2Proof.RoundTrip Sys2Proof.CoreState Sys2Proof.DecodeSpace Sys2Proof.Jump

/-! The errors of the execute stage (R310, R311, R314). -/

/-- The errors that an instruction raises in a state, each with its condition and its context. -/
inductive Raises (s : State) : Instr → ErrorKind → Word → Prop where
  | overflow {i : Instr} (h : overflowsAt s i) : Raises s i .integerOverflow (instructionWord s i)
  | loadMiss {f : IFields} (h : s.mem.fetch (effectiveAddress s f) = none) :
      Raises s (.lw f) .memoryAccessError (effectiveAddress s f)
  | jump {f : JFields} (h : s.params.jMode = .notImplementedFault) :
      Raises s (.j f) .notImplemented (instructionWord s (.j f))

/-- The two ways an instruction ends: with the status as it was, or with an error that it raises there and nothing else
changed (R301). -/
inductive Ending (i : Instr) (s : State) : State → Prop where
  | completes {t : State} (h : t.status = s.status) : Ending i s t
  | raises {kind : ErrorKind} {info : Word} (h : Raises s i kind info) : Ending i s (s.raise kind info)

theorem ending_writeReg_advance (i : Instr) (s : State) (dst : RegIndex) (v : Word) :
    Ending i s (s.writeReg dst v).advance :=
  .completes (writeReg_status s dst v)

theorem completeSigned_ending {i : Instr} {s : State} (dst : RegIndex) {r : Int}
    (hoverflows : detectSignedOverflow r = true → overflowsAt s i) :
    ∃ t, completeSigned i dst r s = .next t ∧ Ending i s t := by
  rcases completeSigned_cases i dst r s with ⟨hoverflow, hraise⟩ | ⟨-, hwrite⟩
  · exact ⟨_, hraise, .raises (.overflow (hoverflows hoverflow))⟩
  · exact ⟨_, hwrite, ending_writeReg_advance i s dst _⟩

theorem execJ_ending (f : JFields) (s : State) : ∃ t, execJ f s = .next t ∧ Ending (.j f) s t := by
  rcases execJ_cases f s with ⟨-, hnotice⟩ | ⟨hmode, hraise⟩
  · exact ⟨_, hnotice, .completes rfl⟩
  · exact ⟨_, hraise, .raises (.jump hmode)⟩

theorem execLw_ending (f : IFields) (s : State) : ∃ t, execLw f s = .next t ∧ Ending (.lw f) s t := by
  rcases execLw_cases f s with ⟨v, -, hload⟩ | ⟨hmiss, hraise⟩
  · exact ⟨_, hload, ending_writeReg_advance _ s f.rt v⟩
  · exact ⟨_, hraise, .raises (.loadMiss hmiss)⟩

/-- Whichever the instruction, it completes or raises one of its own errors. -/
theorem exec_ending (i : Instr) (s : State) : ∃ t, exec i s = .next t ∧ Ending i s t := by
  cases i with
  | sll f | srl f | mfhi f | mflo f | addu f | subu f | and f | or f =>
    exact ⟨_, rfl, ending_writeReg_advance _ s f.rd _⟩
  | addiu f | andi f | ori f | lui f => exact ⟨_, rfl, ending_writeReg_advance _ s f.rt _⟩
  | mult | multu | div | sw => exact ⟨_, rfl, .completes rfl⟩
  | add f | sub f => exact completeSigned_ending f.rd id
  | addi f => exact completeSigned_ending f.rt id
  | j f => exact execJ_ending f s
  | lw f => exact execLw_ending f s

/-! The record that a step leaves (R301, R302, R310 to R314). -/

/-- An error that the instruction at the pc raises has the context of its kind: the word rebuilt from the instruction is the
one that was fetched. -/
theorem Raises.faultInfoOk {s : State} {w : Word} {i : Instr} {kind : ErrorKind} {info : Word} (h : Raises s i kind info)
    (hvalid : s.params.catalog.valid = true) (hfetch : s.mem.fetch s.pc = some w)
    (hdecode : decode s.params.catalog w = .ok i) : faultInfoOk s kind info := by
  have hword : instructionWord s i = w := encodeOfDecode _ w i hvalid hdecode
  cases h with
  | overflow hoverflow => rw [hword]; exact ⟨hfetch, i, hdecode, hoverflow⟩
  | loadMiss hmiss => exact ⟨hmiss, w, _, hfetch, hdecode, rfl⟩
  | jump hmode => rw [hword]; exact ⟨hfetch, hmode, _, hdecode⟩

/-- What a context says of a state, it says of the state with the error recorded: it does not look at the status. -/
theorem faultRecordOk_raise {s : State} {kind : ErrorKind} {info : Word} (h : faultInfoOk s kind info) :
    (s.raise kind info).faultRecordOk := by
  refine ⟨rfl, ?_⟩
  cases kind with
  | integerOverflow | memoryAccessError | unknownInstruction | fetchMiss | notImplemented => exact h

theorem faultRecordOk_of_ready {s : State} (h : s.status = .ready) : s.faultRecordOk := by
  rw [State.faultRecordOk, h]
  trivial

theorem ready_step_faultRecordOk {s t : State} (hvalid : s.params.catalog.valid = true) (hready : s.status = .ready)
    (h : step s = .next t) : t.faultRecordOk := by
  cases hfetch : s.mem.fetch s.pc with
  | none =>
    cases (step_of_fetch_none hready hfetch).symm.trans h
    exact faultRecordOk_raise ⟨rfl, hfetch⟩
  | some w =>
    cases hdispatch : dispatch s.params.catalog w with
    | none =>
      cases (step_of_dispatch_none hready hfetch hdispatch).symm.trans h
      exact faultRecordOk_raise ⟨hfetch, hdispatch⟩
    | some m =>
      have hdecode := decode_of_dispatch hdispatch
      obtain ⟨u, hexec, hending⟩ := exec_ending (instrOf m w) s
      cases ((step_of_decode hready hfetch hdecode).trans hexec).symm.trans h
      cases hending with
      | completes hstatus => exact faultRecordOk_of_ready (hstatus.trans hready)
      | raises hraises => exact faultRecordOk_raise (hraises.faultInfoOk hvalid hfetch hdecode)

theorem catalog_valid_of_params_valid {p : Params} (h : p.valid = true) : p.catalog.valid = true :=
  (Bool.and_eq_true_iff.1 h).2

/-- Settles O57: a Ready state's step completes or records an error whose condition and context are those of the fetch or of
the instruction at the pc; the record of a Faulted state stays as it is. -/
theorem stepKeepsTheFaultRecord : Obligations.StepKeepsTheFaultRecord := by
  intro s t hinv hrecord h
  rcases step_cases h with ⟨hready, -⟩ | ⟨-, rfl⟩
  · exact ready_step_faultRecordOk (catalog_valid_of_params_valid hinv.params) hready h
  · exact hrecord

/-! The order and the kinds of errors (R320). -/

theorem errorKindOf_of_overflowsAt {s : State} {i : Instr} (h : overflowsAt s i) :
    errorKindOf i = some .integerOverflow := by
  cases i with
  | add | sub | addi => rfl
  | _ => exact h.elim

theorem Raises.errorKindOf_eq {s : State} {i : Instr} {kind : ErrorKind} {info : Word} (h : Raises s i kind info) :
    errorKindOf i = some kind := by
  cases h with
  | overflow hoverflow => exact errorKindOf_of_overflowsAt hoverflow
  | loadMiss | jump => rfl

theorem exec_status (i : Instr) (s : State) : ∃ t, exec i s = .next t ∧
    (t.status = s.status ∨ ∃ kind info, errorKindOf i = some kind ∧ t.status = .faulted kind s.pc info) := by
  obtain ⟨t, hexec, hending⟩ := exec_ending i s
  refine ⟨t, hexec, ?_⟩
  cases hending with
  | completes hstatus => exact .inl hstatus
  | raises hraises => exact .inr ⟨_, _, hraises.errorKindOf_eq, rfl⟩

theorem exec_j_status_of_stubNop (f : JFields) (s t : State) (hmode : s.params.jMode = .stubNop)
    (h : exec (.j f) s = .next t) : t.status = s.status := by
  cases (exec_j_of_stubNop f hmode).symm.trans h
  rfl

/-- Settles O43: one lemma per stage, the last of which has the kinds. -/
theorem errorsComeInOrder : Obligations.ErrorsComeInOrder :=
  ⟨fun _ hready hfetch => ⟨_, step_of_fetch_none hready hfetch, rfl⟩,
    fun _ _ hready hfetch hdispatch => ⟨_, step_of_dispatch_none hready hfetch hdispatch, rfl⟩,
    exec_status, exec_j_status_of_stubNop⟩

/-! An error and nothing else (R300, R301). -/

theorem effect_keeps_status_or_raises {s t : State} (h : Effect s t) :
    t.status = s.status ∨ ∃ kind info, t = s.raise kind info := by
  cases h with
  | register i v => exact .inl (writeReg_status s i v)
  | hiLo | memory | notice => exact .inl rfl
  | error kind info => exact .inr ⟨kind, info, rfl⟩

theorem faulted_step_eq (s t : State) (kind : ErrorKind) (errPc info : Word) (hready : s.status = .ready)
    (h : step s = .next t) (hfaulted : t.status = .faulted kind errPc info) :
    errPc = s.pc ∧ t = { s with status := .faulted kind s.pc info } := by
  rcases step_cases h with ⟨-, heffect⟩ | ⟨hnot, -⟩
  · rcases effect_keeps_status_or_raises heffect with hstatus | ⟨kind, info, rfl⟩
    · exact nomatch (hstatus.trans hready).symm.trans hfaulted
    · cases hfaulted
      exact ⟨rfl, rfl⟩
  · exact absurd hready hnot

/-- Settles O44: the only effect that ends Faulted is the recorded error, and a Run stops before its first step. -/
theorem fatalErrorWritesNothing : Obligations.FatalErrorWritesNothing :=
  ⟨faulted_step_eq, fun endCond _ _ hs hreset => runWith_of_not_ready endCond hreset hs⟩

end Sys2Proof.FatalErrors
end

section
/-! PROOFS. Reset, launch, and what every host move keeps (10_state.md R46, 70_reset_and_hazards.md R340 to R353). -/

namespace Sys2Proof.ResetAndLaunch

open Sys2Proof.Machine Sys2Proof.Statements Sys2Proof.RoundTrip Sys2Proof.CoreState
open Sys2Proof.DecodeSpace

/-! The invariant from a reset on (R341, R353). -/

theorem params_valid_iff (p : Params) : p.valid = true ↔ p.resetPc.toNat % 4 = 0 ∧ p.catalog.valid = true := by
  rw [Params.valid, Bool.and_eq_true, beq_iff_eq, Config.instructionWidth]

/-- A reset with valid parameters gives a state with the invariant wherever memory is in canonical form. -/
theorem afterReset_inv {p : Params} {m : Memory} (events : List Word) (hmem : m.wf = true) (hvalid : p.valid = true) :
    (State.afterReset p m events).Inv where
  memory := hmem
  pcAligned := ((params_valid_iff p).1 hvalid).1
  params := hvalid
  zero := fun _ => Vector.getElem_replicate (by decide)

theorem applyReset_inv (s : State) (hs : s.Inv) : (applyReset s).Inv :=
  afterReset_inv s.notices hs.memory hs.params

theorem launch_inv (l : Launch) (t : State) (h : launch l = .next t) : t.Inv := by
  obtain ⟨haligned, hcatalog, rfl⟩ := launch_next l t h
  exact afterReset_inv [] (imageMemory_wf l.image) ((params_valid_iff l.params).2 ⟨haligned, hcatalog⟩)

theorem applyStep_inv (s : State) (hs : s.Inv) : (applyStep s).Inv :=
  stepKeepsTheInvariant s _ hs (step_eq_applyStep s)

theorem applyControl_inv (l : Launch) (m : Control) (s : State) (hs : s.Inv) : (applyControl l m s).Inv :=
  applyControl_keeps State.Inv applyReset_inv applyStep_inv l m s hs

theorem reachable_inv (s : State) (hs : Reachable s) : s.Inv := by
  obtain ⟨l, t, moves, hlaunch, rfl⟩ := hs
  exact applyControls_keeps State.Inv l (applyControl_inv l) moves t (launch_inv l t hlaunch)

/-! The parameters stay as launched (R353). -/

theorem applyStep_params (s : State) : (applyStep s).params = s.params := by
  rcases step_cases (step_eq_applyStep s) with ⟨-, heffect⟩ | ⟨-, hsame⟩
  · exact effect_params heffect
  · rw [hsame]

theorem applyControl_params (l : Launch) (m : Control) (s : State) : (applyControl l m s).params = s.params :=
  applyControl_keeps (·.params = s.params) (fun _ h => h) (fun t h => (applyStep_params t).trans h) l m s rfl

theorem applyControls_params (l : Launch) (s : State) (moves : List Control) :
    (applyControls l moves s).params = s.params :=
  applyControls_keeps (·.params = s.params) l (fun m t h => (applyControl_params l m t).trans h) moves s rfl

/-- Settles O56: a Reset establishes the four parts of the invariant anew and a step keeps them; neither writes the
parameters. -/
theorem hostMovesKeepTheInvariant : Obligations.HostMovesKeepTheInvariant :=
  ⟨launch_inv, applyControl_inv, reachable_inv, applyControls_params⟩

/-- Settles O54: the defaults are valid parameters, and a Ready state has no fault record. -/
theorem resetMeetsTheInvariant : Obligations.ResetMeetsTheInvariant :=
  ⟨afterReset_inv [] reset_mem_wf ((params_valid_iff _).2 ⟨rfl, standard_valid⟩), trivial⟩

/-! The state that a Reset and a launch give (R340, R350, R353). -/

theorem imageMemory_concat (image : List (Word × Word)) (e : Word × Word) :
    imageMemory (image ++ [e]) = (imageMemory image).store e.1 e.2 :=
  List.foldl_concat ..

/-- Memory after a launch: at each address the last Word that the image lists there (20_memory.md R73). -/
theorem fetch_imageMemory (image : List (Word × Word)) (a : Word) :
    (imageMemory image).fetch a = (image.reverse.find? fun e => e.1 = a).map (·.2) := by
  induction image using List.reverseRecOn with
  | nil => rfl
  | append_singleton image e ih =>
    rw [imageMemory_concat, List.reverse_concat, List.find?_cons]
    by_cases hlast : e.1 = a
    · simp [hlast, fetch_store_same]
    · simp [hlast, fetch_store_ne _ _ _ _ (Ne.symm hlast), ih]

/-- Settles O51: the fields of `State.afterReset`, and the launch's memory address by address. -/
theorem resetState : Obligations.ResetState := by
  refine ⟨fun s => ⟨afterReset_readReg _ _ _, rfl, rfl, rfl, rfl, rfl, rfl⟩, fun l t h => ?_, rfl, rfl⟩
  obtain ⟨-, -, rfl⟩ := launch_next l t h
  exact ⟨afterReset_readReg _ _ _, rfl, rfl, rfl, rfl, rfl, rfl, fetch_imageMemory l.image⟩

/-! The launches that are refused (R341, R353, 30_encoding.md R104, R111). -/

theorem key_of_format_r (c : Catalog) {m : Mnemonic} (hm : m.format = .r) : c.key m = (0, c.code m) := by
  rw [Catalog.key, opcode_of_format_r c hm, funct_of_format_r c hm]

theorem key_of_format_ne_r (c : Catalog) {m : Mnemonic} (hm : m.format ≠ .r) : c.key m = (c.code m, 0) := by
  rw [Catalog.key, opcode_of_format_ne_r c hm, funct_of_format_ne_r c hm]

/-- Where no other code is 0, opcode 0 is R-format alone (R104), so that equal pairs have one format. -/
theorem format_r_iff_of_key_eq {c : Catalog} (hzero : ∀ m : Mnemonic, m.format ≠ .r → c.code m ≠ 0) {m n : Mnemonic}
    (hkey : c.key m = c.key n) : m.format = .r ↔ n.format = .r := by
  have hopcode (k : Mnemonic) : k.format = .r ↔ c.opcode k = 0 :=
    ⟨opcode_of_format_r c, fun h => by_contra fun hk => hzero k hk ((opcode_of_format_ne_r c hk).symm.trans h)⟩
  rw [hopcode m, hopcode n, show c.opcode m = c.opcode n from (Prod.mk.inj hkey).1]

theorem eq_of_key_eq {c : Catalog}
    (hfuncts : ∀ m n : Mnemonic, m.format = .r → n.format = .r → c.code m = c.code n → m = n)
    (hopcodes : ∀ m n : Mnemonic, m.format ≠ .r → n.format ≠ .r → c.code m = c.code n → m = n)
    (hzero : ∀ m : Mnemonic, m.format ≠ .r → c.code m ≠ 0) {m n : Mnemonic} (hkey : c.key m = c.key n) : m = n := by
  have hformat := format_r_iff_of_key_eq hzero hkey
  by_cases hm : m.format = .r
  · have hn := hformat.1 hm
    rw [key_of_format_r c hm, key_of_format_r c hn] at hkey
    exact hfuncts m n hm hn (Prod.mk.inj hkey).2
  · have hn := mt hformat.2 hm
    rw [key_of_format_ne_r c hm, key_of_format_ne_r c hn] at hkey
    exact hopcodes m n hm hn (Prod.mk.inj hkey).1

/-- The launch check of a CATALOG's (opcode, funct) pairs, in its codes. -/
theorem valid_iff_codes (c : Catalog) :
    c.valid = true ↔
      (∀ m n : Mnemonic, m.format = .r → n.format = .r → c.code m = c.code n → m = n) ∧
      (∀ m n : Mnemonic, m.format ≠ .r → n.format ≠ .r → c.code m = c.code n → m = n) ∧
      (∀ m : Mnemonic, m.format ≠ .r → c.code m ≠ 0) := by
  constructor
  · intro hvalid
    refine ⟨fun m n hm hn hcode => key_injective_of_valid hvalid ?_,
      fun m n hm hn hcode => key_injective_of_valid hvalid ?_, fun m hm => ?_⟩
    · rw [key_of_format_r c hm, key_of_format_r c hn, hcode]
    · rw [key_of_format_ne_r c hm, key_of_format_ne_r c hn, hcode]
    · exact opcode_of_format_ne_r c hm ▸ opcode_ne_zero_of_valid hvalid hm
  · rintro ⟨hfuncts, hopcodes, hzero⟩
    refine (valid_iff c).2 fun m => ⟨or_iff_not_imp_left.2 fun hm => ?_, fun n => or_iff_not_imp_right.2 fun hkey => ?_⟩
    · exact opcode_of_format_ne_r c hm ▸ hzero m hm
    · exact eq_of_key_eq hfuncts hopcodes hzero (not_not.1 hkey)

theorem launch_refused_misaligned_iff (l : Launch) :
    launch l = .refused .misalignedResetPc ↔ l.params.resetPc.toNat % 4 ≠ 0 := by
  unfold launch
  split_ifs with hmisaligned hcatalog
  · exact iff_of_true rfl hmisaligned
  · exact iff_of_false nofun hmisaligned
  · exact iff_of_false nofun hmisaligned

theorem exists_launch_next_iff (l : Launch) :
    (∃ t, launch l = .next t) ↔ l.params.resetPc.toNat % 4 = 0 ∧ l.params.catalog.valid = true := by
  constructor
  · rintro ⟨t, h⟩
    obtain ⟨haligned, hcatalog, -⟩ := launch_next l t h
    exact ⟨haligned, hcatalog⟩
  · rintro ⟨haligned, hcatalog⟩
    exact ⟨_, (if_neg (not_not.2 haligned)).trans (if_neg (by simp [hcatalog]))⟩

/-- Settles O52: RESET_PC is checked first, and the check of the CATALOG's pairs is one of its codes. -/
theorem launchRefusesExactly : Obligations.LaunchRefusesExactly := fun l =>
  ⟨launch_refused_misaligned_iff l,
    (exists_launch_next_iff l).trans (and_congr_right' (valid_iff_codes l.params.catalog))⟩

end Sys2Proof.ResetAndLaunch
end
